-- ==== Sys2Proof/Word.lean ====
section
/-! DEFINITION. The word types of the machine (00_scope.md R6, R9; 20_memory.md R41). -/

namespace Sys2Proof

/-- A 32-bit value: a register, an address, an instruction word (R6, R9). -/
abbrev Word := BitVec 32

/-- An 8-bit value: one byte of memory (20_memory.md R41). -/
abbrev Byte := BitVec 8

/-- A 5-bit register number: the field `rd`, `rs1` or `rs2` (10_state.md R20). -/
abbrev Reg := BitVec 5

end Sys2Proof
end

