-- ==== Sys2Proof/Config.lean ====
section
/-! DEFINITION. The parameters of 00_scope.md R7 that the machine consults at every step, as plain data.
Their values at `State.reset` are in Machine/Defaults.lean; a step never changes them (20_memory.md R53). -/

namespace Sys2Proof

/-- `SYSTEM_IMM_MAP` (R7; 43_other.md R175): which 12-bit immediate selects `ecall` and which `ebreak`. -/
inductive SystemImmMap where
  | official
  | card
  deriving DecidableEq, Repr

/-- `MISALIGNED_DATA` (R7; 20_memory.md R46). -/
inductive MisalignedData where
  | trap
  | emulate
  deriving DecidableEq, Repr

/-- `UNLISTED_POLICY` (R7; 30_encoding.md R88). -/
inductive UnlistedPolicy where
  | refuse
  | illegalTrap
  deriving DecidableEq, Repr

/-- `IFETCH_AFTER_STORE` (R7; 20_memory.md R57). -/
inductive IfetchAfterStore where
  | refuse
  | coherent
  deriving DecidableEq, Repr

/-- What may be done to a byte: the members `r`, `w`, `x` of `MemMap` (R7; 20_memory.md R51). -/
inductive Perm where
  | r
  | w
  | x
  deriving DecidableEq, Repr

/-- One region of `MemMap`: the bytes `base .. base + size - 1` and the permissions it grants them. -/
structure Region where
  base : Nat
  size : Nat
  r : Bool
  w : Bool
  x : Bool
  deriving DecidableEq, Repr

/-- The parameters of a run (R7). DESIGN CHOICE (log 1): they stand in State, so that a claim about every
state is a claim about every value of them. `BYTE_ORDER` and `NHARTS` have one value each and no field. -/
structure Params where
  extMul : Bool
  sysImmMap : SystemImmMap
  misalignedData : MisalignedData
  unlistedPolicy : UnlistedPolicy
  ifetchAfterStore : IfetchAfterStore
  memMap : List Region
  deriving DecidableEq, Repr

end Sys2Proof
end

