-- ==== Sys2Proof/Machine/Defaults.lean ====
section
/-! DEFINITION. The values `State.reset` gives the OPEN parameters of 00_scope.md R7 and the registers the spec
leaves unspecified at reset (10_state.md R35). They are the model's, not the spec's (log 2 to 7, 10 to 12); no rule is
stated of these values alone: `State.resetWith` takes every other choice. -/

namespace Sys2Proof.Machine

/-- `RESET_PC` (10_state.md R34): a multiple of 4. DESIGN CHOICE (log 2): the address the programs of
95_test_vectors.md start at. -/
def defaultResetPc : Word := 0x00001000#32

/-- `MemMap` (20_memory.md R51). DESIGN CHOICE (log 6): every byte of the space is backed and r, w, x. -/
def defaultMemMap : List Region :=
  [⟨0, 2 ^ 32, true, true, true⟩]

/-- The parameters at reset: `EXT_MUL` true (DESIGN CHOICE, log 4), `SYSTEM_IMM_MAP` official (D17, log 12),
`MISALIGNED_DATA` trap (recommended, D9, log 5), `UNLISTED_POLICY` refuse (D15, log 10), `IFETCH_AFTER_STORE` refuse
(D25, log 11). -/
def defaultParams : Params where
  extMul := true
  sysImmMap := .official
  misalignedData := .trap
  unlistedPolicy := .refuse
  ifetchAfterStore := .refuse
  memMap := defaultMemMap

/-- The value of `xi` at reset for `1 ≤ i ≤ 31`. DESIGN CHOICE (log 3): the spec leaves it unspecified and says
"never zero" (10_state.md R24), so each register holds a non-zero value of its own. -/
def defaultReg (i : Nat) : Word := 0x5A5A5A00#32 + 4#32 * BitVec.ofNat 32 i

/-- `x1 .. x31` at reset (10_state.md R35, log 3). -/
def defaultRegs : Vector Word 31 :=
  ⟨((List.range 31).map fun k => defaultReg (k + 1)).toArray, by simp⟩

/-- What a byte of memory that is not listed reads as. DESIGN CHOICE (log 7): zero, so `InitMem` of `State.reset` is
zero everywhere (10_state.md R36 leaves it open). -/
def unlistedByte : Byte := 0#8

end Sys2Proof.Machine
end

