-- ==== Sys2Proof/Syntax.lean ====
section
/-! DEFINITION. The instructions: one constructor per row of spec/opcode_table.json, with the operands of
30_encoding.md R92. Register operands are 5-bit numbers; `imm` is the 12-bit immediate of the I and S layouts,
`shamt` the 5-bit amount of I*, `offset` the 13-bit (B) or 21-bit (J) signed byte distance whose bit 0 is zero
(checked in WellFormed.lean), `immu` the 20-bit field of the U layout. -/

namespace Sys2Proof

inductive Instr where
  -- Table 1, R type
  | add (rd rs1 rs2 : Reg)
  | sub (rd rs1 rs2 : Reg)
  | and (rd rs1 rs2 : Reg)
  | or (rd rs1 rs2 : Reg)
  | xor (rd rs1 rs2 : Reg)
  | sll (rd rs1 rs2 : Reg)
  | srl (rd rs1 rs2 : Reg)
  | sra (rd rs1 rs2 : Reg)
  | slt (rd rs1 rs2 : Reg)
  | sltu (rd rs1 rs2 : Reg)
  -- Table 1, I and I* type
  | addi (rd rs1 : Reg) (imm : BitVec 12)
  | andi (rd rs1 : Reg) (imm : BitVec 12)
  | ori (rd rs1 : Reg) (imm : BitVec 12)
  | xori (rd rs1 : Reg) (imm : BitVec 12)
  | slli (rd rs1 : Reg) (shamt : BitVec 5)
  | srli (rd rs1 : Reg) (shamt : BitVec 5)
  | srai (rd rs1 : Reg) (shamt : BitVec 5)
  | slti (rd rs1 : Reg) (imm : BitVec 12)
  | sltiu (rd rs1 : Reg) (imm : BitVec 12)
  -- Table 2
  | lb (rd rs1 : Reg) (imm : BitVec 12)
  | lbu (rd rs1 : Reg) (imm : BitVec 12)
  | lh (rd rs1 : Reg) (imm : BitVec 12)
  | lhu (rd rs1 : Reg) (imm : BitVec 12)
  | lw (rd rs1 : Reg) (imm : BitVec 12)
  | sb (rs2 rs1 : Reg) (imm : BitVec 12)
  | sh (rs2 rs1 : Reg) (imm : BitVec 12)
  | sw (rs2 rs1 : Reg) (imm : BitVec 12)
  -- Table 3
  | beq (rs1 rs2 : Reg) (offset : BitVec 13)
  | bne (rs1 rs2 : Reg) (offset : BitVec 13)
  | blt (rs1 rs2 : Reg) (offset : BitVec 13)
  | bltu (rs1 rs2 : Reg) (offset : BitVec 13)
  | bge (rs1 rs2 : Reg) (offset : BitVec 13)
  | bgeu (rs1 rs2 : Reg) (offset : BitVec 13)
  | jal (rd : Reg) (offset : BitVec 21)
  | jalr (rd rs1 : Reg) (imm : BitVec 12)
  -- Table 4
  | auipc (rd : Reg) (immu : BitVec 20)
  | lui (rd : Reg) (immu : BitVec 20)
  | ebreak
  | ecall
  -- Table 5
  | mul (rd rs1 rs2 : Reg)
  deriving DecidableEq, Repr

namespace Instr

/-- The register an instruction names in its `rd` field, if its layout has one (10_state.md R22). -/
def rd? : Instr → Option Reg
  | .add rd _ _ | .sub rd _ _ | .and rd _ _ | .or rd _ _ | .xor rd _ _ => some rd
  | .sll rd _ _ | .srl rd _ _ | .sra rd _ _ | .slt rd _ _ | .sltu rd _ _ => some rd
  | .addi rd _ _ | .andi rd _ _ | .ori rd _ _ | .xori rd _ _ => some rd
  | .slli rd _ _ | .srli rd _ _ | .srai rd _ _ | .slti rd _ _ | .sltiu rd _ _ => some rd
  | .lb rd _ _ | .lbu rd _ _ | .lh rd _ _ | .lhu rd _ _ | .lw rd _ _ => some rd
  | .sb _ _ _ | .sh _ _ _ | .sw _ _ _ => none
  | .beq _ _ _ | .bne _ _ _ | .blt _ _ _ | .bltu _ _ _ | .bge _ _ _ | .bgeu _ _ _ => none
  | .jal rd _ | .jalr rd _ _ | .auipc rd _ | .lui rd _ => some rd
  | .ebreak | .ecall => none
  | .mul rd _ _ => some rd

/-- A store: the instructions that write memory (20_memory.md R40, R48). -/
def isStore : Instr → Bool
  | .sb _ _ _ | .sh _ _ _ | .sw _ _ _ => true
  | .add _ _ _ | .sub _ _ _ | .and _ _ _ | .or _ _ _ | .xor _ _ _ => false
  | .sll _ _ _ | .srl _ _ _ | .sra _ _ _ | .slt _ _ _ | .sltu _ _ _ => false
  | .addi _ _ _ | .andi _ _ _ | .ori _ _ _ | .xori _ _ _ => false
  | .slli _ _ _ | .srli _ _ _ | .srai _ _ _ | .slti _ _ _ | .sltiu _ _ _ => false
  | .lb _ _ _ | .lbu _ _ _ | .lh _ _ _ | .lhu _ _ _ | .lw _ _ _ => false
  | .beq _ _ _ | .bne _ _ _ | .blt _ _ _ | .bltu _ _ _ | .bge _ _ _ | .bgeu _ _ _ => false
  | .jal _ _ | .jalr _ _ _ | .auipc _ _ | .lui _ _ | .ebreak | .ecall | .mul _ _ _ => false

/-- A load (20_memory.md R40, R48). -/
def isLoad : Instr → Bool
  | .lb _ _ _ | .lbu _ _ _ | .lh _ _ _ | .lhu _ _ _ | .lw _ _ _ => true
  | .add _ _ _ | .sub _ _ _ | .and _ _ _ | .or _ _ _ | .xor _ _ _ => false
  | .sll _ _ _ | .srl _ _ _ | .sra _ _ _ | .slt _ _ _ | .sltu _ _ _ => false
  | .addi _ _ _ | .andi _ _ _ | .ori _ _ _ | .xori _ _ _ => false
  | .slli _ _ _ | .srli _ _ _ | .srai _ _ _ | .slti _ _ _ | .sltiu _ _ _ => false
  | .sb _ _ _ | .sh _ _ _ | .sw _ _ _ => false
  | .beq _ _ _ | .bne _ _ _ | .blt _ _ _ | .bltu _ _ _ | .bge _ _ _ | .bgeu _ _ _ => false
  | .jal _ _ | .jalr _ _ _ | .auipc _ _ | .lui _ _ | .ebreak | .ecall | .mul _ _ _ => false

/-- A conditional branch or a jump: the instructions that write `pc` otherwise than by the sequential
advance (10_state.md R25, R26). -/
def isControl : Instr → Bool
  | .beq _ _ _ | .bne _ _ _ | .blt _ _ _ | .bltu _ _ _ | .bge _ _ _ | .bgeu _ _ _ => true
  | .jal _ _ | .jalr _ _ _ => true
  | .add _ _ _ | .sub _ _ _ | .and _ _ _ | .or _ _ _ | .xor _ _ _ => false
  | .sll _ _ _ | .srl _ _ _ | .sra _ _ _ | .slt _ _ _ | .sltu _ _ _ => false
  | .addi _ _ _ | .andi _ _ _ | .ori _ _ _ | .xori _ _ _ => false
  | .slli _ _ _ | .srli _ _ _ | .srai _ _ _ | .slti _ _ _ | .sltiu _ _ _ => false
  | .lb _ _ _ | .lbu _ _ _ | .lh _ _ _ | .lhu _ _ _ | .lw _ _ _ => false
  | .sb _ _ _ | .sh _ _ _ | .sw _ _ _ => false
  | .auipc _ _ | .lui _ _ | .ebreak | .ecall | .mul _ _ _ => false

/-- The row of spec/opcode_table.json an instruction stands for. -/
def mnemonic : Instr → String
  | .add _ _ _ => "add" | .sub _ _ _ => "sub" | .and _ _ _ => "and" | .or _ _ _ => "or"
  | .xor _ _ _ => "xor" | .sll _ _ _ => "sll" | .srl _ _ _ => "srl" | .sra _ _ _ => "sra"
  | .slt _ _ _ => "slt" | .sltu _ _ _ => "sltu"
  | .addi _ _ _ => "addi" | .andi _ _ _ => "andi" | .ori _ _ _ => "ori" | .xori _ _ _ => "xori"
  | .slli _ _ _ => "slli" | .srli _ _ _ => "srli" | .srai _ _ _ => "srai"
  | .slti _ _ _ => "slti" | .sltiu _ _ _ => "sltiu"
  | .lb _ _ _ => "lb" | .lbu _ _ _ => "lbu" | .lh _ _ _ => "lh" | .lhu _ _ _ => "lhu"
  | .lw _ _ _ => "lw" | .sb _ _ _ => "sb" | .sh _ _ _ => "sh" | .sw _ _ _ => "sw"
  | .beq _ _ _ => "beq" | .bne _ _ _ => "bne" | .blt _ _ _ => "blt" | .bltu _ _ _ => "bltu"
  | .bge _ _ _ => "bge" | .bgeu _ _ _ => "bgeu" | .jal _ _ => "jal" | .jalr _ _ _ => "jalr"
  | .auipc _ _ => "auipc" | .lui _ _ => "lui" | .ebreak => "ebreak" | .ecall => "ecall"
  | .mul _ _ _ => "mul"

end Instr

end Sys2Proof
end

