-- ==== Sys2Proof/WellFormed.lean ====
section
/-! DEFINITION. Which terms of `Instr` are instructions of the machine with given parameters: the operand ranges of
30_encoding.md R93 that the field widths do not already enforce, and the presence of `mul`. -/

namespace Sys2Proof

/-- A B or J offset is a multiple of 2: bit 0 has no place in the encoding (30_encoding.md R83, R85, R86). -/
def offsetEven {n : Nat} (offset : BitVec n) : Bool := offset.getLsbD 0 == false

/-- Well-formed under the parameters `c`: branch and `jal` offsets even (R83, R85, R93); `mul` present only when
`EXT_MUL` is true (43_other.md R174). Every other operand at every value of its field is well-formed (R93). -/
def Instr.wellFormed (c : Params) : Instr → Bool
  | .beq _ _ offset | .bne _ _ offset | .blt _ _ offset => offsetEven offset
  | .bltu _ _ offset | .bge _ _ offset | .bgeu _ _ offset => offsetEven offset
  | .jal _ offset => offsetEven offset
  | .mul _ _ _ => c.extMul
  | .add _ _ _ | .sub _ _ _ | .and _ _ _ | .or _ _ _ | .xor _ _ _ => true
  | .sll _ _ _ | .srl _ _ _ | .sra _ _ _ | .slt _ _ _ | .sltu _ _ _ => true
  | .addi _ _ _ | .andi _ _ _ | .ori _ _ _ | .xori _ _ _ => true
  | .slli _ _ _ | .srli _ _ _ | .srai _ _ _ | .slti _ _ _ | .sltiu _ _ _ => true
  | .lb _ _ _ | .lbu _ _ _ | .lh _ _ _ | .lhu _ _ _ | .lw _ _ _ => true
  | .sb _ _ _ | .sh _ _ _ | .sw _ _ _ => true
  | .jalr _ _ _ | .auipc _ _ | .lui _ _ | .ebreak | .ecall => true

end Sys2Proof
end

