-- ==== Sys2Proof/Decode.lean ====
section
/-! DEFINITION. Decoding and encoding (30_encoding.md): the fields of a word, the decoder from words and from bytes,
the encoder written from the layouts, and the opcode map of R87 as a table. -/

namespace Sys2Proof

/-! ### Fields of a word (00_scope.md R15; 30_encoding.md R71) -/

/-- `inst[6:0]`. -/
def opcodeOf (w : Word) : BitVec 7 := w.extractLsb' 0 7
/-- `inst[11:7]`. -/
def rdOf (w : Word) : Reg := w.extractLsb' 7 5
/-- `inst[14:12]`. -/
def funct3Of (w : Word) : BitVec 3 := w.extractLsb' 12 3
/-- `inst[19:15]`. -/
def rs1Of (w : Word) : Reg := w.extractLsb' 15 5
/-- `inst[24:20]`, the second source register or the shift amount (R81). -/
def rs2Of (w : Word) : Reg := w.extractLsb' 20 5
/-- `inst[31:25]`. -/
def funct7Of (w : Word) : BitVec 7 := w.extractLsb' 25 7
/-- The I layout's `imm[11:0]`, `inst[31:20]` (R73). -/
def immIOf (w : Word) : BitVec 12 := w.extractLsb' 20 12
/-- The S layout's immediate, `inst[31:25] ++ inst[11:7]` (R75, R82). -/
def immSOf (w : Word) : BitVec 12 := w.extractLsb' 25 7 ++ w.extractLsb' 7 5
/-- The B layout's offset, `inst[31] ++ inst[7] ++ inst[30:25] ++ inst[11:8] ++ 0` (R76, R83). -/
def immBOf (w : Word) : BitVec 13 :=
  w.extractLsb' 31 1 ++ w.extractLsb' 7 1 ++ w.extractLsb' 25 6 ++ w.extractLsb' 8 4 ++ 0#1
/-- The U layout's 20-bit field, `inst[31:12]` (R77). -/
def immUOf (w : Word) : BitVec 20 := w.extractLsb' 12 20
/-- The J layout's offset, `inst[31] ++ inst[19:12] ++ inst[20] ++ inst[30:21] ++ 0` (R78, R85). -/
def immJOf (w : Word) : BitVec 21 :=
  w.extractLsb' 31 1 ++ w.extractLsb' 12 8 ++ w.extractLsb' 20 1 ++ w.extractLsb' 21 10 ++ 0#1

/-! ### The decoder (30_encoding.md R87 to R89) -/

/-- Why a word is no instruction: it matches no row of R87. The classes are those of R89. -/
inductive Reject where
  /-- Fewer than four bytes are left (R70: every instruction is one 32-bit word). -/
  | truncated
  /-- The value of `inst[6:0]` is in no table (R89 (h), (i); R91). -/
  | unlistedOpcode
  /-- A listed opcode with an unlisted `funct3` (R89 (c), (d), (e), (f)). -/
  | unlistedFunct3
  /-- Opcode `0110011`, or a shift under `0010011`, with an unlisted `funct7` (R89 (a), (b)). -/
  | unlistedFunct7
  /-- Opcode `1110011`, any word but the two listed (R89 (g)). -/
  | unlistedSystem
  /-- The word of `mul` with `EXT_MUL` false (R88; 43_other.md R174). -/
  | mulAbsent
  deriving DecidableEq, Repr

/-- Opcode `0110011` (R72, R87 rows `add` to `sltu` and `mul`; R89 (a)). -/
def decodeOp (c : Params) (funct7 : BitVec 7) (funct3 : BitVec 3) (rd rs1 rs2 : Reg) : Except Reject Instr :=
  if funct7 = 0b0000000#7 then
    if funct3 = 0b000#3 then .ok (.add rd rs1 rs2)
    else if funct3 = 0b001#3 then .ok (.sll rd rs1 rs2)
    else if funct3 = 0b010#3 then .ok (.slt rd rs1 rs2)
    else if funct3 = 0b011#3 then .ok (.sltu rd rs1 rs2)
    else if funct3 = 0b100#3 then .ok (.xor rd rs1 rs2)
    else if funct3 = 0b101#3 then .ok (.srl rd rs1 rs2)
    else if funct3 = 0b110#3 then .ok (.or rd rs1 rs2)
    else .ok (.and rd rs1 rs2)
  else if funct7 = 0b0100000#7 then
    if funct3 = 0b000#3 then .ok (.sub rd rs1 rs2)
    else if funct3 = 0b101#3 then .ok (.sra rd rs1 rs2)
    else .error .unlistedFunct7
  else if funct7 = 0b0000001#7 then
    if funct3 = 0b000#3 then (if c.extMul then .ok (.mul rd rs1 rs2) else .error .mulAbsent)
    else .error .unlistedFunct7
  else .error .unlistedFunct7

/-- Opcode `0010011` (R73, R74, R87 rows `addi` to `sltiu`; R89 (b)). -/
def decodeOpImm (funct7 : BitVec 7) (funct3 : BitVec 3) (rd rs1 : Reg) (imm : BitVec 12) (shamt : BitVec 5) :
    Except Reject Instr :=
  if funct3 = 0b000#3 then .ok (.addi rd rs1 imm)
  else if funct3 = 0b001#3 then
    if funct7 = 0b0000000#7 then .ok (.slli rd rs1 shamt) else .error .unlistedFunct7
  else if funct3 = 0b010#3 then .ok (.slti rd rs1 imm)
  else if funct3 = 0b011#3 then .ok (.sltiu rd rs1 imm)
  else if funct3 = 0b100#3 then .ok (.xori rd rs1 imm)
  else if funct3 = 0b101#3 then
    if funct7 = 0b0000000#7 then .ok (.srli rd rs1 shamt)
    else if funct7 = 0b0100000#7 then .ok (.srai rd rs1 shamt)
    else .error .unlistedFunct7
  else if funct3 = 0b110#3 then .ok (.ori rd rs1 imm)
  else .ok (.andi rd rs1 imm)

/-- Opcode `0000011` (R73, R87 rows `lb` to `lw`; R89 (c)). -/
def decodeLoad (funct3 : BitVec 3) (rd rs1 : Reg) (imm : BitVec 12) : Except Reject Instr :=
  if funct3 = 0b000#3 then .ok (.lb rd rs1 imm)
  else if funct3 = 0b001#3 then .ok (.lh rd rs1 imm)
  else if funct3 = 0b010#3 then .ok (.lw rd rs1 imm)
  else if funct3 = 0b100#3 then .ok (.lbu rd rs1 imm)
  else if funct3 = 0b101#3 then .ok (.lhu rd rs1 imm)
  else .error .unlistedFunct3

/-- Opcode `0100011` (R75, R87 rows `sb sh sw`; R89 (d)). -/
def decodeStore (funct3 : BitVec 3) (rs2 rs1 : Reg) (imm : BitVec 12) : Except Reject Instr :=
  if funct3 = 0b000#3 then .ok (.sb rs2 rs1 imm)
  else if funct3 = 0b001#3 then .ok (.sh rs2 rs1 imm)
  else if funct3 = 0b010#3 then .ok (.sw rs2 rs1 imm)
  else .error .unlistedFunct3

/-- Opcode `1100011` (R76, R87 rows `beq` to `bgeu`; R89 (e)). -/
def decodeBranch (funct3 : BitVec 3) (rs1 rs2 : Reg) (offset : BitVec 13) : Except Reject Instr :=
  if funct3 = 0b000#3 then .ok (.beq rs1 rs2 offset)
  else if funct3 = 0b001#3 then .ok (.bne rs1 rs2 offset)
  else if funct3 = 0b100#3 then .ok (.blt rs1 rs2 offset)
  else if funct3 = 0b101#3 then .ok (.bge rs1 rs2 offset)
  else if funct3 = 0b110#3 then .ok (.bltu rs1 rs2 offset)
  else if funct3 = 0b111#3 then .ok (.bgeu rs1 rs2 offset)
  else .error .unlistedFunct3

/-- The whole word of `ecall` under `SYSTEM_IMM_MAP` (43_other.md R173, R175; 90_conflicts.md C1). -/
def ecallWord (c : Params) : Word :=
  match c.sysImmMap with
  | .official => 0x00000073#32
  | .card => 0x00100073#32

/-- The whole word of `ebreak` under `SYSTEM_IMM_MAP` (43_other.md R172, R175; 90_conflicts.md C1). -/
def ebreakWord (c : Params) : Word :=
  match c.sysImmMap with
  | .official => 0x00100073#32
  | .card => 0x00000073#32

/-- Opcode `1110011`: the whole word is matched (R87 note (b); R89 (g)). -/
def decodeSystem (c : Params) (w : Word) : Except Reject Instr :=
  if w = ecallWord c then .ok .ecall
  else if w = ebreakWord c then .ok .ebreak
  else .error .unlistedSystem

/-- The instruction a word stands for under the parameters `c`, or the class of unlisted words it is in (R87 to R89). -/
def decodeWord (c : Params) (w : Word) : Except Reject Instr :=
  if opcodeOf w = 0b0110011#7 then decodeOp c (funct7Of w) (funct3Of w) (rdOf w) (rs1Of w) (rs2Of w)
  else if opcodeOf w = 0b0010011#7 then
    decodeOpImm (funct7Of w) (funct3Of w) (rdOf w) (rs1Of w) (immIOf w) (rs2Of w)
  else if opcodeOf w = 0b0000011#7 then decodeLoad (funct3Of w) (rdOf w) (rs1Of w) (immIOf w)
  else if opcodeOf w = 0b0100011#7 then decodeStore (funct3Of w) (rs2Of w) (rs1Of w) (immSOf w)
  else if opcodeOf w = 0b1100011#7 then decodeBranch (funct3Of w) (rs1Of w) (rs2Of w) (immBOf w)
  else if opcodeOf w = 0b1101111#7 then .ok (.jal (rdOf w) (immJOf w))
  else if opcodeOf w = 0b1100111#7 then
    if funct3Of w = 0b000#3 then .ok (.jalr (rdOf w) (rs1Of w) (immIOf w)) else .error .unlistedFunct3
  else if opcodeOf w = 0b0010111#7 then .ok (.auipc (rdOf w) (immUOf w))
  else if opcodeOf w = 0b0110111#7 then .ok (.lui (rdOf w) (immUOf w))
  else if opcodeOf w = 0b1110011#7 then decodeSystem c w
  else .error .unlistedOpcode

/-- The word in four bytes, the byte at the lowest address first (R70; 20_memory.md R42, R47 step 4). -/
def wordOfBytes (b0 b1 b2 b3 : Byte) : Word := b3 ++ b2 ++ b1 ++ b0

/-- The decoder on any bytes: the first instruction and the bytes after it (R70, R91: every instruction is four bytes). -/
def decodeBytes (c : Params) : List Byte → Except Reject (Instr × List Byte)
  | b0 :: b1 :: b2 :: b3 :: rest =>
    match decodeWord c (wordOfBytes b0 b1 b2 b3) with
    | .ok i => .ok (i, rest)
    | .error e => .error e
  | _ => .error .truncated

/-! ### The encoder (30_encoding.md R72 to R78, R86) -/

/-- R72 and, with the shift amount in place of `rs2`, R74. -/
def encR (funct7 : BitVec 7) (rs2 rs1 : Reg) (funct3 : BitVec 3) (rd : Reg) (opcode : BitVec 7) : Word :=
  funct7 ++ rs2 ++ rs1 ++ funct3 ++ rd ++ opcode

/-- R73. -/
def encI (imm : BitVec 12) (rs1 : Reg) (funct3 : BitVec 3) (rd : Reg) (opcode : BitVec 7) : Word :=
  imm ++ rs1 ++ funct3 ++ rd ++ opcode

/-- R75: `imm[11:5]` in `inst[31:25]`, `imm[4:0]` in `inst[11:7]`. -/
def encS (imm : BitVec 12) (rs2 rs1 : Reg) (funct3 : BitVec 3) (opcode : BitVec 7) : Word :=
  imm.extractLsb' 5 7 ++ rs2 ++ rs1 ++ funct3 ++ imm.extractLsb' 0 5 ++ opcode

/-- R76: `imm[12]`, `imm[10:5]`, `imm[4:1]`, `imm[11]` in `inst[31]`, `inst[30:25]`, `inst[11:8]`, `inst[7]`. -/
def encB (offset : BitVec 13) (rs2 rs1 : Reg) (funct3 : BitVec 3) (opcode : BitVec 7) : Word :=
  offset.extractLsb' 12 1 ++ offset.extractLsb' 5 6 ++ rs2 ++ rs1 ++ funct3 ++ offset.extractLsb' 1 4 ++
    offset.extractLsb' 11 1 ++ opcode

/-- R77. -/
def encU (immu : BitVec 20) (rd : Reg) (opcode : BitVec 7) : Word :=
  immu ++ rd ++ opcode

/-- R78: `imm[20]`, `imm[10:1]`, `imm[11]`, `imm[19:12]` in `inst[31]`, `inst[30:21]`, `inst[20]`, `inst[19:12]`. -/
def encJ (offset : BitVec 21) (rd : Reg) (opcode : BitVec 7) : Word :=
  offset.extractLsb' 20 1 ++ offset.extractLsb' 1 10 ++ offset.extractLsb' 11 1 ++ offset.extractLsb' 12 8 ++ rd ++
    opcode

/-- The word of a well-formed instruction under the parameters `c` (R87 and the layouts). -/
def encode (c : Params) : Instr → Word
  | .add rd rs1 rs2 => encR 0b0000000#7 rs2 rs1 0b000#3 rd 0b0110011#7
  | .sub rd rs1 rs2 => encR 0b0100000#7 rs2 rs1 0b000#3 rd 0b0110011#7
  | .and rd rs1 rs2 => encR 0b0000000#7 rs2 rs1 0b111#3 rd 0b0110011#7
  | .or rd rs1 rs2 => encR 0b0000000#7 rs2 rs1 0b110#3 rd 0b0110011#7
  | .xor rd rs1 rs2 => encR 0b0000000#7 rs2 rs1 0b100#3 rd 0b0110011#7
  | .sll rd rs1 rs2 => encR 0b0000000#7 rs2 rs1 0b001#3 rd 0b0110011#7
  | .srl rd rs1 rs2 => encR 0b0000000#7 rs2 rs1 0b101#3 rd 0b0110011#7
  | .sra rd rs1 rs2 => encR 0b0100000#7 rs2 rs1 0b101#3 rd 0b0110011#7
  | .slt rd rs1 rs2 => encR 0b0000000#7 rs2 rs1 0b010#3 rd 0b0110011#7
  | .sltu rd rs1 rs2 => encR 0b0000000#7 rs2 rs1 0b011#3 rd 0b0110011#7
  | .addi rd rs1 imm => encI imm rs1 0b000#3 rd 0b0010011#7
  | .andi rd rs1 imm => encI imm rs1 0b111#3 rd 0b0010011#7
  | .ori rd rs1 imm => encI imm rs1 0b110#3 rd 0b0010011#7
  | .xori rd rs1 imm => encI imm rs1 0b100#3 rd 0b0010011#7
  | .slli rd rs1 shamt => encR 0b0000000#7 shamt rs1 0b001#3 rd 0b0010011#7
  | .srli rd rs1 shamt => encR 0b0000000#7 shamt rs1 0b101#3 rd 0b0010011#7
  | .srai rd rs1 shamt => encR 0b0100000#7 shamt rs1 0b101#3 rd 0b0010011#7
  | .slti rd rs1 imm => encI imm rs1 0b010#3 rd 0b0010011#7
  | .sltiu rd rs1 imm => encI imm rs1 0b011#3 rd 0b0010011#7
  | .lb rd rs1 imm => encI imm rs1 0b000#3 rd 0b0000011#7
  | .lbu rd rs1 imm => encI imm rs1 0b100#3 rd 0b0000011#7
  | .lh rd rs1 imm => encI imm rs1 0b001#3 rd 0b0000011#7
  | .lhu rd rs1 imm => encI imm rs1 0b101#3 rd 0b0000011#7
  | .lw rd rs1 imm => encI imm rs1 0b010#3 rd 0b0000011#7
  | .sb rs2 rs1 imm => encS imm rs2 rs1 0b000#3 0b0100011#7
  | .sh rs2 rs1 imm => encS imm rs2 rs1 0b001#3 0b0100011#7
  | .sw rs2 rs1 imm => encS imm rs2 rs1 0b010#3 0b0100011#7
  | .beq rs1 rs2 offset => encB offset rs2 rs1 0b000#3 0b1100011#7
  | .bne rs1 rs2 offset => encB offset rs2 rs1 0b001#3 0b1100011#7
  | .blt rs1 rs2 offset => encB offset rs2 rs1 0b100#3 0b1100011#7
  | .bltu rs1 rs2 offset => encB offset rs2 rs1 0b110#3 0b1100011#7
  | .bge rs1 rs2 offset => encB offset rs2 rs1 0b101#3 0b1100011#7
  | .bgeu rs1 rs2 offset => encB offset rs2 rs1 0b111#3 0b1100011#7
  | .jal rd offset => encJ offset rd 0b1101111#7
  | .jalr rd rs1 imm => encI imm rs1 0b000#3 rd 0b1100111#7
  | .auipc rd immu => encU immu rd 0b0010111#7
  | .lui rd immu => encU immu rd 0b0110111#7
  | .ebreak => ebreakWord c
  | .ecall => ecallWord c
  | .mul rd rs1 rs2 => encR 0b0000001#7 rs2 rs1 0b000#3 rd 0b0110011#7

/-- The four bytes of a word, the byte at the lowest address first (20_memory.md R42). -/
def bytesOfWord (w : Word) : List Byte :=
  [w.extractLsb' 0 8, w.extractLsb' 8 8, w.extractLsb' 16 8, w.extractLsb' 24 8]

/-! ### The opcode map of R87 as a table -/

/-- One row of R87: a word `inst` is this row's when `inst & mask == pattern`. -/
structure OpcodeRow where
  mnemonic : String
  pattern : Word
  mask : Word
  deriving DecidableEq, Repr

/-- A row covers a word: `inst & mask == match` (R87). -/
def OpcodeRow.covers (row : OpcodeRow) (w : Word) : Bool := w &&& row.mask == row.pattern

/-- The rows of Table 1, R type. -/
def rowsOp : List OpcodeRow :=
  [⟨"add", 0x00000033#32, 0xFE00707F#32⟩, ⟨"sub", 0x40000033#32, 0xFE00707F#32⟩,
   ⟨"and", 0x00007033#32, 0xFE00707F#32⟩, ⟨"or", 0x00006033#32, 0xFE00707F#32⟩,
   ⟨"xor", 0x00004033#32, 0xFE00707F#32⟩, ⟨"sll", 0x00001033#32, 0xFE00707F#32⟩,
   ⟨"srl", 0x00005033#32, 0xFE00707F#32⟩, ⟨"sra", 0x40005033#32, 0xFE00707F#32⟩,
   ⟨"slt", 0x00002033#32, 0xFE00707F#32⟩, ⟨"sltu", 0x00003033#32, 0xFE00707F#32⟩]

/-- The rows of Table 1, I and I* type. -/
def rowsOpImm : List OpcodeRow :=
  [⟨"addi", 0x00000013#32, 0x0000707F#32⟩, ⟨"andi", 0x00007013#32, 0x0000707F#32⟩,
   ⟨"ori", 0x00006013#32, 0x0000707F#32⟩, ⟨"xori", 0x00004013#32, 0x0000707F#32⟩,
   ⟨"slli", 0x00001013#32, 0xFE00707F#32⟩, ⟨"srli", 0x00005013#32, 0xFE00707F#32⟩,
   ⟨"srai", 0x40005013#32, 0xFE00707F#32⟩, ⟨"slti", 0x00002013#32, 0x0000707F#32⟩,
   ⟨"sltiu", 0x00003013#32, 0x0000707F#32⟩]

/-- The rows of Table 2. -/
def rowsMemory : List OpcodeRow :=
  [⟨"lb", 0x00000003#32, 0x0000707F#32⟩, ⟨"lbu", 0x00004003#32, 0x0000707F#32⟩,
   ⟨"lh", 0x00001003#32, 0x0000707F#32⟩, ⟨"lhu", 0x00005003#32, 0x0000707F#32⟩,
   ⟨"lw", 0x00002003#32, 0x0000707F#32⟩, ⟨"sb", 0x00000023#32, 0x0000707F#32⟩,
   ⟨"sh", 0x00001023#32, 0x0000707F#32⟩, ⟨"sw", 0x00002023#32, 0x0000707F#32⟩]

/-- The rows of Table 3. -/
def rowsControl : List OpcodeRow :=
  [⟨"beq", 0x00000063#32, 0x0000707F#32⟩, ⟨"bne", 0x00001063#32, 0x0000707F#32⟩,
   ⟨"blt", 0x00004063#32, 0x0000707F#32⟩, ⟨"bltu", 0x00006063#32, 0x0000707F#32⟩,
   ⟨"bge", 0x00005063#32, 0x0000707F#32⟩, ⟨"bgeu", 0x00007063#32, 0x0000707F#32⟩,
   ⟨"jal", 0x0000006F#32, 0x0000007F#32⟩, ⟨"jalr", 0x00000067#32, 0x0000707F#32⟩]

/-- The rows of Table 4, `ebreak` and `ecall` by `SYSTEM_IMM_MAP` (R87 note (a)). -/
def rowsOther (c : Params) : List OpcodeRow :=
  [⟨"auipc", 0x00000017#32, 0x0000007F#32⟩, ⟨"lui", 0x00000037#32, 0x0000007F#32⟩,
   ⟨"ebreak", ebreakWord c, 0xFFFFFFFF#32⟩, ⟨"ecall", ecallWord c, 0xFFFFFFFF#32⟩]

/-- The row of Table 5, present when `EXT_MUL` is true (R87 note (c)). -/
def rowsMul (c : Params) : List OpcodeRow :=
  if c.extMul then [⟨"mul", 0x02000033#32, 0xFE00707F#32⟩] else []

/-- The opcode map of R87 under the parameters `c`, in the spec's order. -/
def opcodeRows (c : Params) : List OpcodeRow :=
  rowsOp ++ rowsOpImm ++ rowsMemory ++ rowsControl ++ rowsOther c ++ rowsMul c

/-! ### The host's question -/

/-- The instruction the decoder reads, under the default parameters, from an instruction whose bits are `w`, numbered
as spec/opcode_table.json numbers them; bits from `nbits` up are zero. -/
def decodeTableWord (nbits w : Nat) : Option Instr :=
  match decodeBytes Machine.defaultParams (bytesOfWord (BitVec.ofNat 32 (w % 2 ^ nbits))) with
  | .ok (i, _) => some i
  | .error _ => none

end Sys2Proof
end

