-- ==== Sys2Proof/Machine/State.lean ====
section
/-! DEFINITION. The state of the machine (10_state.md R20 to R36; 60_exceptions.md R220, R226), the reasons it stops,
and the state after reset (70_reset_and_hazards.md R260). INVENTORY.md lists every field with its rule. -/

namespace Sys2Proof.Machine

/-- The exceptions a step can raise (60_exceptions.md R220), by the spec's names. -/
inductive Exc where
  | instructionAddressMisaligned
  | instructionAccessFault
  | illegalInstruction
  | breakpoint
  | environmentCall
  | loadAddressMisaligned
  | loadAccessFault
  | storeAddressMisaligned
  | storeAccessFault
  deriving DecidableEq, Repr

/-- What a raise hands to the execution environment beside `pc`, the registers and memory, which are the state's own
(00_scope.md R14; 60_exceptions.md R226): the exception and the `info` value. -/
structure Handover where
  cause : Exc
  info : Word
  deriving DecidableEq, Repr

/-- The 31 writable registers: entry `i - 1` holds `xi`, `1 ≤ i ≤ 31`. `x0` has no storage (10_state.md R21). -/
abbrev Regs := Vector Word 31

/-- Memory as the listed bytes, by address (20_memory.md R40); an unlisted byte reads as `unlistedByte` (log 7). The
canonical form is `Memory.wf` of Ops.lean. -/
abbrev Memory := List Host.Cell

/-- The state of the machine. -/
structure State where
  /-- `x1 .. x31` (R20). -/
  regs : Regs
  /-- The program counter (R25). -/
  pc : Word
  /-- The bytes of the one address space (R32). -/
  mem : Memory
  /-- The addresses of the bytes a store has written since reset, ascending (20_memory.md R47 step 3, R57). -/
  stored : List Nat
  /-- The record of the raise that ended the run, if one has (60_exceptions.md R226, R232). -/
  handover : Option Handover
  /-- The parameters of the run (00_scope.md R7); no step changes them (log 1). -/
  params : Params
  deriving DecidableEq, Repr

/-- Why the machine stops. -/
inductive Fault where
  /-- Raised by `step` alone, on a state whose run has ended with the hand-over `h`: after a raise there is no further
  step (60_exceptions.md R226, R232; 70_reset_and_hazards.md R267). Safe: the environment may go on, and nothing is
  claimed of that. -/
  | runEnded (h : Handover)
  deriving DecidableEq, Repr

/-- Why the model gives a step no meaning. -/
inductive Refusal where
  /-- An instruction of the table without a meaning. No arm of `exec` answers it. Safe. -/
  | notModelled (mnemonic : String)
  /-- Raised by `step` when the word fetched matches no row and `UNLISTED_POLICY = refuse` (30_encoding.md R88;
  60_exceptions.md R223). Safe: real hardware may execute the word. -/
  | unlistedWord (word : Word)
  /-- Raised by `step` when the fetch at `pc` reads a byte a store has written and `IFETCH_AFTER_STORE = refuse`
  (20_memory.md R47, R57). Safe: real hardware fetches the old or the new bytes. -/
  | fetchAfterStore (pc : Word)
  deriving DecidableEq, Repr

/-- What an execution environment chooses for a new launch (60_exceptions.md R228): `(pc', x', memory')`. -/
structure Launch where
  pc : Word
  regs : Regs
  mem : Memory
  deriving DecidableEq, Repr

/-- A reset state (70_reset_and_hazards.md R260), for every choice the spec leaves open: the parameters, `RESET_PC`
(a multiple of 4 by R34), the unspecified values of `x1 .. x31` (R35) and `InitMem` (R36). -/
def State.resetWith (c : Params) (resetPc : Word) (xs : Regs) (initMem : Memory) : State where
  regs := xs
  pc := resetPc
  mem := initMem
  stored := []
  handover := none
  params := c

/-- The reset state at the model's named values (log 2 to 7). -/
def State.reset : State :=
  State.resetWith defaultParams defaultResetPc defaultRegs []

end Sys2Proof.Machine
end

