-- ==== Sys2Proof/Machine/Ops.lean ====
section
/-! DEFINITION. The named operations over the state: registers (10_state.md R20, R21), the program counter (R25 to
R28), memory and its permissions (20_memory.md R40 to R58), taking an exception (60_exceptions.md R226) and a new
launch after one (R228). -/

namespace Sys2Proof.Machine

/-! ### Registers -/

/-- `x[i]` (00_scope.md R12): `x0` reads as zero (10_state.md R21). -/
def State.x (s : State) (i : Reg) : Word :=
  if h : i = 0#5 then 0#32
  else s.regs[i.toNat - 1]'(by
    have : i.toNat ≠ 0 := fun e => h (BitVec.eq_of_toNat_eq (by simpa using e))
    omega)

/-- `x[i] <- v` (00_scope.md R12): a write to `x0` changes nothing (10_state.md R21). -/
def State.setX (s : State) (i : Reg) (v : Word) : State :=
  if h : i = 0#5 then s
  else { s with regs := s.regs.set (i.toNat - 1) v (by
    have : i.toNat ≠ 0 := fun e => h (BitVec.eq_of_toNat_eq (by simpa using e))
    omega) }

/-! ### The program counter -/

/-- `pc <- t`. -/
def State.setPc (s : State) (t : Word) : State := { s with pc := t }

/-- `pc <- pc + 4`, modulo 2^32 (10_state.md R26, R28). -/
def State.advance (s : State) : State := s.setPc (s.pc + 4#32)

/-- An address is a multiple of 4 (10_state.md R27): `t[1:0] = 0`. -/
def wordAligned (t : Word) : Bool := t.extractLsb' 0 2 == 0#2

/-! ### Memory: one byte -/

/-- `B(a)`: the byte memory holds at `a` (20_memory.md R43). -/
def Memory.read : Memory → Nat → Byte
  | [], _ => unlistedByte
  | (k, b) :: m, a => if k = a then b else Memory.read m a

/-- List the byte `b` at `a`, before the first listed address above `a`. -/
def Memory.insertCell : Memory → Nat → Byte → Memory
  | [], a, b => [(a, b)]
  | (k, c) :: m, a, b => if a < k then (a, b) :: (k, c) :: m else (k, c) :: Memory.insertCell m a b

/-- Memory with no entry for `a`. -/
def Memory.erase (m : Memory) (a : Nat) : Memory := m.filter fun c => c.1 != a

/-- Memory with the byte at `a` replaced by `b` (20_memory.md R44 step 3); it keeps the canonical form. -/
def Memory.write (m : Memory) (a : Nat) (b : Byte) : Memory :=
  if b = unlistedByte then m.erase a else (m.erase a).insertCell a b

/-- The canonical form of memory: addresses strictly rising and inside the space, no entry equal to what an unlisted
address reads as. -/
abbrev Memory.wf (m : Memory) : Prop :=
  m.Pairwise (fun c d => c.1 < d.1) ∧ ∀ c ∈ m, c.1 < 2 ^ 32 ∧ c.2 ≠ unlistedByte

/-- The byte of the state's memory at the address `a`. -/
def State.byte (s : State) (a : Word) : Byte := s.mem.read a.toNat

/-! ### Memory: `n` bytes, little-endian -/

/-- The `8n`-bit value at `a`: the byte at `a + i` holds bits `8i+7 .. 8i`, the address of each byte modulo 2^32
(20_memory.md R42, R43 step 3). -/
def Memory.readLE (m : Memory) (a : Word) : (n : Nat) → BitVec (8 * n)
  | 0 => 0#0
  | n + 1 => (Memory.readLE m (a + 1#32) n ++ m.read a.toNat : BitVec (8 * n + 8))

/-- Memory with the `n` bytes at `a` replaced by `v`, least significant byte first (20_memory.md R42, R44 step 3). -/
def Memory.writeLE (m : Memory) (a : Word) : (n : Nat) → BitVec (8 * n) → Memory
  | 0, _ => m
  | n + 1, v => Memory.writeLE (m.write a.toNat (v.extractLsb' 0 8)) (a + 1#32) n (v.extractLsb' 8 (8 * n))

/-- The byte addresses of an access: `(a + i) mod 2^32` for `i < n` (20_memory.md R43, R44, R47). -/
def byteAddrs (a : Word) (n : Nat) : List Word := (List.range n).map fun i => a + BitVec.ofNat 32 i

/-! ### The bytes stores have written -/

/-- Add an address to an ascending list of addresses. -/
def insertAddr : List Nat → Nat → List Nat
  | [], a => [a]
  | k :: l, a => if a < k then a :: k :: l else if a = k then k :: l else k :: insertAddr l a

/-- Record that a store has written the bytes at the addresses `as` (20_memory.md R57). -/
def markStored (l : List Nat) (as : List Word) : List Nat := as.foldl (fun l a => insertAddr l a.toNat) l

/-- The form of the record of stored bytes: ascending, inside the space. -/
abbrev storedWf (l : List Nat) : Prop := l.Pairwise (· < ·) ∧ ∀ a ∈ l, a < 2 ^ 32

/-! ### Permissions (20_memory.md R51, R52) -/

/-- A region holds the byte at `a`. -/
def regionCovers (g : Region) (a : Nat) : Bool := g.base ≤ a && a < g.base + g.size

/-- A region grants the permission `p`. -/
def regionGrants (g : Region) : Perm → Bool
  | .r => g.r
  | .w => g.w
  | .x => g.x

/-- `p ∈ MemMap(a)`: some region that holds the byte grants `p`. -/
def permitsByte (memMap : List Region) (p : Perm) (a : Word) : Bool :=
  memMap.any fun g => regionCovers g a.toNat && regionGrants g p

/-- Every byte of the `n`-byte access at `a` has the permission `p` (R43, R44, R47 step 2). -/
def State.permits (s : State) (p : Perm) (a : Word) (n : Nat) : Bool :=
  (byteAddrs a n).all (permitsByte s.params.memMap p)

/-! ### The access primitives (20_memory.md R43, R44, R46) -/

/-- The access of `n` bytes at `a` traps as misaligned (R46): `a` is no multiple of `n` and `MISALIGNED_DATA = trap`. -/
def State.trapsMisaligned (s : State) (a : Word) (n : Nat) : Bool :=
  s.params.misalignedData == .trap && a.toNat % n != 0

/-- `MemRead(a, n)` (R43; order of checks 41_loads_stores.md R139): the value, or what is raised. It changes no state. -/
def State.memRead (s : State) (a : Word) (n : Nat) : Except Handover (BitVec (8 * n)) :=
  if s.trapsMisaligned a n then .error ⟨.loadAddressMisaligned, a⟩
  else if s.permits .r a n then .ok (s.mem.readLE a n)
  else .error ⟨.loadAccessFault, a⟩

/-- The state after a store of `v` to the `n` bytes at `a` (R44 step 3; R57). -/
def State.storeBytes (s : State) (a : Word) (n : Nat) (v : BitVec (8 * n)) : State :=
  { s with mem := s.mem.writeLE a n v, stored := markStored s.stored (byteAddrs a n) }

/-- `MemWrite(a, n, v)` (R44; order of checks 41_loads_stores.md R139): the state after it, or what is raised. -/
def State.memWrite (s : State) (a : Word) (n : Nat) (v : BitVec (8 * n)) : Except Handover State :=
  if s.trapsMisaligned a n then .error ⟨.storeAddressMisaligned, a⟩
  else if s.permits .w a n then .ok (s.storeBytes a n v)
  else .error ⟨.storeAccessFault, a⟩

/-! ### Taking an exception, and a new launch -/

/-- `raise E(info)` (00_scope.md R14; 60_exceptions.md R226, R227): the step is the hand-over. The machine saves nothing
and jumps nowhere: `pc`, the registers and memory stay as they were before the raising instruction, and the record
`(E, info)` is kept beside them. The run ends there: `step` answers `runEnded` from such a state (R232; log 8). -/
def raise (h : Handover) (s : State) : Host.Outcome State Fault Refusal :=
  .next { s with handover := some h }

/-- A new launch after a hand-over (60_exceptions.md R228): the environment's choice of `(pc', x', memory')`. There is no
return instruction (R229). The record of stored bytes is kept (log 9). -/
def State.launch (s : State) (l : Launch) : State :=
  { s with regs := l.regs, pc := l.pc, mem := l.mem, handover := none }

/-! ### The shapes meanings share -/

/-- Write `v` to `x[rd]` and advance (40_arithmetic.md R100; 00_scope.md R16 step 4). -/
def writeBack (rd : Reg) (v : Word) (s : State) : Host.Outcome State Fault Refusal :=
  .next ((s.setX rd v).advance)

/-- A load of `n` bytes from `ea`, extended by `ext`, into `x[rd]` (41_loads_stores.md R139, R140). -/
def loadInto (n : Nat) (ext : BitVec (8 * n) → Word) (rd : Reg) (ea : Word) (s : State) :
    Host.Outcome State Fault Refusal :=
  match s.memRead ea n with
  | .error h => raise h s
  | .ok v => writeBack rd (ext v) s

/-- A store of `v` to the `n` bytes at `ea` (41_loads_stores.md R139, R140). -/
def storeFrom (n : Nat) (v : BitVec (8 * n)) (ea : Word) (s : State) : Host.Outcome State Fault Refusal :=
  match s.memWrite ea n v with
  | .error h => raise h s
  | .ok t => .next t.advance

/-- A conditional branch to `t` (42_control.md R150 to R153): a taken branch to a target that is no multiple of 4 raises
and changes nothing; one that is not taken never raises. -/
def branchTo (taken : Bool) (t : Word) (s : State) : Host.Outcome State Fault Refusal :=
  if taken then
    if wordAligned t then .next (s.setPc t) else raise ⟨.instructionAddressMisaligned, t⟩ s
  else .next s.advance

/-- A jump to `t` that links to `x[rd]` (42_control.md R150, R152, R159): with a target that is no multiple of 4 the link
is not written. -/
def jumpLink (rd : Reg) (t : Word) (s : State) : Host.Outcome State Fault Refusal :=
  if wordAligned t then .next ((s.setX rd (s.pc + 4#32)).setPc t)
  else raise ⟨.instructionAddressMisaligned, t⟩ s

end Sys2Proof.Machine
end

