-- ==== Sys2Proof/Machine/Flags.lean ====
section
/-! DEFINITION. There are no flags, condition codes or predicate registers (10_state.md R29). What other machines keep
in flags is here the result of a comparison: a condition inside a branch, or 0 or 1 in a general register. -/

namespace Sys2Proof.Machine

/-- `a <s b` (00_scope.md R11): two's complement. UNVERIFIED (log 26). -/
def ltSigned (a b : Word) : Bool := decide (a.toInt < b.toInt)

/-- `a <u b` (00_scope.md R11). -/
def ltUnsigned (a b : Word) : Bool := decide (a.toNat < b.toNat)

/-- `a >=s b`, the negation of `a <s b` (00_scope.md R11). -/
def geSigned (a b : Word) : Bool := !ltSigned a b

/-- `a >=u b`, the negation of `a <u b` (00_scope.md R11). -/
def geUnsigned (a b : Word) : Bool := !ltUnsigned a b

/-- The result of a set instruction: 1 or 0 (40_arithmetic.md R111, R112, R120, R121). -/
def boolWord (c : Bool) : Word := if c then 0x00000001#32 else 0x00000000#32

end Sys2Proof.Machine
end

