-- ==== Sys2Proof/Machine/Operands.lean ====
section
/-! DEFINITION. Every operand form of the card: immediates (30_encoding.md R80 to R85), shift amounts
(40_arithmetic.md R102), the one addressing mode (41_loads_stores.md R130) and the targets of control transfers
(42_control.md R151, R160). -/

namespace Sys2Proof.Machine

/-- `imm_I = sext_32(imm)` (30_encoding.md R80). UNVERIFIED (log 15). -/
def immI (imm : BitVec 12) : Word := imm.signExtend 32

/-- `imm_S = sext_32(imm)` (30_encoding.md R82). UNVERIFIED (log 15). -/
def immS (imm : BitVec 12) : Word := imm.signExtend 32

/-- `imm_B = sext_32(offset)` (30_encoding.md R83). UNVERIFIED (log 15). -/
def immB (offset : BitVec 13) : Word := offset.signExtend 32

/-- `imm_U = immu ++ 0^12` (30_encoding.md R84). -/
def immU (immu : BitVec 20) : Word := immu ++ 0#12

/-- `imm_J = sext_32(offset)` (30_encoding.md R85). UNVERIFIED (log 15). -/
def immJ (offset : BitVec 21) : Word := offset.signExtend 32

/-- The amount of a register shift: `x[rs2][4:0]` (40_arithmetic.md R102). UNVERIFIED (log 16). -/
def shiftAmount (v : Word) : Nat := (v.extractLsb' 0 5).toNat

/-- The amount of an immediate shift: `shamt` (30_encoding.md R81). -/
def immShiftAmount (shamt : BitVec 5) : Nat := shamt.toNat

/-- The effective address of a load: `x[rs1] + imm_I` modulo 2^32 (20_memory.md R45; 41_loads_stores.md R130). -/
def State.loadAddr (s : State) (rs1 : Reg) (imm : BitVec 12) : Word := s.x rs1 + immI imm

/-- The effective address of a store: `x[rs1] + imm_S` modulo 2^32 (20_memory.md R45; 41_loads_stores.md R130). -/
def State.storeAddr (s : State) (rs1 : Reg) (imm : BitVec 12) : Word := s.x rs1 + immS imm

/-- The target of a branch: `pc + imm_B` modulo 2^32 (42_control.md R151). -/
def State.branchTarget (s : State) (offset : BitVec 13) : Word := s.pc + immB offset

/-- The target of `jal`: `pc + imm_J` modulo 2^32 (42_control.md R151, R159). -/
def State.jalTarget (s : State) (offset : BitVec 21) : Word := s.pc + immJ offset

/-- The target of `jalr`: `(x[rs1] + imm_I) & 0xFFFFFFFE` (42_control.md R160 (a)). UNVERIFIED (log 18). -/
def State.jalrTarget (s : State) (rs1 : Reg) (imm : BitVec 12) : Word := (s.x rs1 + immI imm) &&& 0xFFFFFFFE#32

end Sys2Proof.Machine
end

