-- ==== Sys2Proof/Machine/Arith.lean ====
section
/-! DEFINITION. Table 1, R type (40_arithmetic.md R103 to R112), and `mul` of Table 5 (43_other.md R174). Sources are
read before `x[rd]` is written; nothing is raised (R100). -/

namespace Sys2Proof.Machine

/-- R103. -/
def execAdd (rd rs1 rs2 : Reg) (s : State) : Host.Outcome State Fault Refusal :=
  writeBack rd (s.x rs1 + s.x rs2) s

/-- R104: `rs1` is the minuend. -/
def execSub (rd rs1 rs2 : Reg) (s : State) : Host.Outcome State Fault Refusal :=
  writeBack rd (s.x rs1 - s.x rs2) s

/-- R105. -/
def execAnd (rd rs1 rs2 : Reg) (s : State) : Host.Outcome State Fault Refusal :=
  writeBack rd (s.x rs1 &&& s.x rs2) s

/-- R106. -/
def execOr (rd rs1 rs2 : Reg) (s : State) : Host.Outcome State Fault Refusal :=
  writeBack rd (s.x rs1 ||| s.x rs2) s

/-- R107. -/
def execXor (rd rs1 rs2 : Reg) (s : State) : Host.Outcome State Fault Refusal :=
  writeBack rd (s.x rs1 ^^^ s.x rs2) s

/-- R108. -/
def execSll (rd rs1 rs2 : Reg) (s : State) : Host.Outcome State Fault Refusal :=
  writeBack rd (s.x rs1 <<< shiftAmount (s.x rs2)) s

/-- R109: zeros enter at bit 31. -/
def execSrl (rd rs1 rs2 : Reg) (s : State) : Host.Outcome State Fault Refusal :=
  writeBack rd (s.x rs1 >>> shiftAmount (s.x rs2)) s

/-- R110: copies of the old bit 31 enter. -/
def execSra (rd rs1 rs2 : Reg) (s : State) : Host.Outcome State Fault Refusal :=
  writeBack rd ((s.x rs1).sshiftRight (shiftAmount (s.x rs2))) s

/-- R111: signed (90_conflicts.md C2). -/
def execSlt (rd rs1 rs2 : Reg) (s : State) : Host.Outcome State Fault Refusal :=
  writeBack rd (boolWord (ltSigned (s.x rs1) (s.x rs2))) s

/-- R112: unsigned (90_conflicts.md C2). -/
def execSltu (rd rs1 rs2 : Reg) (s : State) : Host.Outcome State Fault Refusal :=
  writeBack rd (boolWord (ltUnsigned (s.x rs1) (s.x rs2))) s

/-- R174, R176: the low 32 bits of the product. Its presence (`EXT_MUL`) is the decoder's matter (log 30). -/
def execMul (rd rs1 rs2 : Reg) (s : State) : Host.Outcome State Fault Refusal :=
  writeBack rd (s.x rs1 * s.x rs2) s

end Sys2Proof.Machine
end

