-- ==== Sys2Proof/Machine/ArithImm.lean ====
section
/-! DEFINITION. Table 1, I and I* type (40_arithmetic.md R113 to R121). Nothing is raised (R100). -/

namespace Sys2Proof.Machine

/-- R113. -/
def execAddi (rd rs1 : Reg) (imm : BitVec 12) (s : State) : Host.Outcome State Fault Refusal :=
  writeBack rd (s.x rs1 + immI imm) s

/-- R114. -/
def execAndi (rd rs1 : Reg) (imm : BitVec 12) (s : State) : Host.Outcome State Fault Refusal :=
  writeBack rd (s.x rs1 &&& immI imm) s

/-- R115. -/
def execOri (rd rs1 : Reg) (imm : BitVec 12) (s : State) : Host.Outcome State Fault Refusal :=
  writeBack rd (s.x rs1 ||| immI imm) s

/-- R116. -/
def execXori (rd rs1 : Reg) (imm : BitVec 12) (s : State) : Host.Outcome State Fault Refusal :=
  writeBack rd (s.x rs1 ^^^ immI imm) s

/-- R117. -/
def execSlli (rd rs1 : Reg) (shamt : BitVec 5) (s : State) : Host.Outcome State Fault Refusal :=
  writeBack rd (s.x rs1 <<< immShiftAmount shamt) s

/-- R118. -/
def execSrli (rd rs1 : Reg) (shamt : BitVec 5) (s : State) : Host.Outcome State Fault Refusal :=
  writeBack rd (s.x rs1 >>> immShiftAmount shamt) s

/-- R119. -/
def execSrai (rd rs1 : Reg) (shamt : BitVec 5) (s : State) : Host.Outcome State Fault Refusal :=
  writeBack rd ((s.x rs1).sshiftRight (immShiftAmount shamt)) s

/-- R120: signed. -/
def execSlti (rd rs1 : Reg) (imm : BitVec 12) (s : State) : Host.Outcome State Fault Refusal :=
  writeBack rd (boolWord (ltSigned (s.x rs1) (immI imm))) s

/-- R121: the immediate is sign-extended, then both are read as unsigned. UNVERIFIED (log 15). -/
def execSltiu (rd rs1 : Reg) (imm : BitVec 12) (s : State) : Host.Outcome State Fault Refusal :=
  writeBack rd (boolWord (ltUnsigned (s.x rs1) (immI imm))) s

end Sys2Proof.Machine
end

