-- ==== Sys2Proof/Machine/Control.lean ====
section
/-! DEFINITION. Table 3 (42_control.md R153 to R160). `pc` is the address of the branch or jump itself (R151); there is no
delay slot (R161). -/

namespace Sys2Proof.Machine

/-- R153. -/
def execBeq (rs1 rs2 : Reg) (offset : BitVec 13) (s : State) : Host.Outcome State Fault Refusal :=
  branchTo (s.x rs1 == s.x rs2) (s.branchTarget offset) s

/-- R154. -/
def execBne (rs1 rs2 : Reg) (offset : BitVec 13) (s : State) : Host.Outcome State Fault Refusal :=
  branchTo (s.x rs1 != s.x rs2) (s.branchTarget offset) s

/-- R155: signed. -/
def execBlt (rs1 rs2 : Reg) (offset : BitVec 13) (s : State) : Host.Outcome State Fault Refusal :=
  branchTo (ltSigned (s.x rs1) (s.x rs2)) (s.branchTarget offset) s

/-- R156: unsigned. -/
def execBltu (rs1 rs2 : Reg) (offset : BitVec 13) (s : State) : Host.Outcome State Fault Refusal :=
  branchTo (ltUnsigned (s.x rs1) (s.x rs2)) (s.branchTarget offset) s

/-- R157: signed. -/
def execBge (rs1 rs2 : Reg) (offset : BitVec 13) (s : State) : Host.Outcome State Fault Refusal :=
  branchTo (geSigned (s.x rs1) (s.x rs2)) (s.branchTarget offset) s

/-- R158: unsigned. -/
def execBgeu (rs1 rs2 : Reg) (offset : BitVec 13) (s : State) : Host.Outcome State Fault Refusal :=
  branchTo (geUnsigned (s.x rs1) (s.x rs2)) (s.branchTarget offset) s

/-- R159. -/
def execJal (rd : Reg) (offset : BitVec 21) (s : State) : Host.Outcome State Fault Refusal :=
  jumpLink rd (s.jalTarget offset) s

/-- R160: the target is computed from the old `x[rs1]` (R160 (b); 90_conflicts.md C3). -/
def execJalr (rd rs1 : Reg) (imm : BitVec 12) (s : State) : Host.Outcome State Fault Refusal :=
  jumpLink rd (s.jalrTarget rs1 imm) s

end Sys2Proof.Machine
end

