-- ==== Sys2Proof/Machine/LoadStore.lean ====
section
/-! DEFINITION. Table 2 (41_loads_stores.md R131 to R138). The address is computed from the registers as they are before
the instruction, so a load with `rd = rs1` uses the old base (R140); the order of checks is R139. -/

namespace Sys2Proof.Machine

/-- R131. -/
def execLb (rd rs1 : Reg) (imm : BitVec 12) (s : State) : Host.Outcome State Fault Refusal :=
  loadInto 1 (BitVec.signExtend 32) rd (s.loadAddr rs1 imm) s

/-- R132. -/
def execLbu (rd rs1 : Reg) (imm : BitVec 12) (s : State) : Host.Outcome State Fault Refusal :=
  loadInto 1 (BitVec.setWidth 32) rd (s.loadAddr rs1 imm) s

/-- R133. -/
def execLh (rd rs1 : Reg) (imm : BitVec 12) (s : State) : Host.Outcome State Fault Refusal :=
  loadInto 2 (BitVec.signExtend 32) rd (s.loadAddr rs1 imm) s

/-- R134. -/
def execLhu (rd rs1 : Reg) (imm : BitVec 12) (s : State) : Host.Outcome State Fault Refusal :=
  loadInto 2 (BitVec.setWidth 32) rd (s.loadAddr rs1 imm) s

/-- R135: no extension is needed. -/
def execLw (rd rs1 : Reg) (imm : BitVec 12) (s : State) : Host.Outcome State Fault Refusal :=
  loadInto 4 id rd (s.loadAddr rs1 imm) s

/-- R136: the low byte of `x[rs2]`. -/
def execSb (rs2 rs1 : Reg) (imm : BitVec 12) (s : State) : Host.Outcome State Fault Refusal :=
  storeFrom 1 ((s.x rs2).extractLsb' 0 8) (s.storeAddr rs1 imm) s

/-- R137: the low half-word of `x[rs2]`. -/
def execSh (rs2 rs1 : Reg) (imm : BitVec 12) (s : State) : Host.Outcome State Fault Refusal :=
  storeFrom 2 ((s.x rs2).extractLsb' 0 16) (s.storeAddr rs1 imm) s

/-- R138. -/
def execSw (rs2 rs1 : Reg) (imm : BitVec 12) (s : State) : Host.Outcome State Fault Refusal :=
  storeFrom 4 (s.x rs2) (s.storeAddr rs1 imm) s

end Sys2Proof.Machine
end

