-- ==== Sys2Proof/Machine/Other.lean ====
section
/-! DEFINITION. Table 4 (43_other.md R170 to R173). -/

namespace Sys2Proof.Machine

/-- R170: `pc` is the address of the `auipc` itself. -/
def execAuipc (rd : Reg) (immu : BitVec 20) (s : State) : Host.Outcome State Fault Refusal :=
  writeBack rd (s.pc + immU immu) s

/-- R171. -/
def execLui (rd : Reg) (immu : BitVec 20) (s : State) : Host.Outcome State Fault Refusal :=
  writeBack rd (immU immu) s

/-- R172: `raise Breakpoint(pc)`; `pc` does not advance. -/
def execEbreak (s : State) : Host.Outcome State Fault Refusal :=
  raise ⟨.breakpoint, s.pc⟩ s

/-- R173: `raise EnvironmentCall(pc)`; `pc` does not advance. -/
def execEcall (s : State) : Host.Outcome State Fault Refusal :=
  raise ⟨.environmentCall, s.pc⟩ s

end Sys2Proof.Machine
end

