-- ==== Sys2Proof/Machine/Fetch.lean ====
section
/-! DEFINITION. Instruction fetch (20_memory.md R47), and placing one instruction where the next fetch reads it. -/

namespace Sys2Proof.Machine

/-- What a fetch gives: the word, an exception raised, or a fetch the model gives no meaning. -/
inductive Fetched where
  | word (w : Word)
  | raises (h : Handover)
  | refuses (r : Refusal)
  deriving DecidableEq, Repr

/-- Some byte of the fetch at `pc` has been written by a store since reset (R47 step 3, R57). -/
def State.fetchesStored (s : State) : Bool := (byteAddrs s.pc 4).any fun a => s.stored.contains a.toNat

/-- `Fetch(pc)` (R47), its checks in the order of 60_exceptions.md R225. -/
def State.fetch (s : State) : Fetched :=
  if wordAligned s.pc then
    if s.permits .x s.pc 4 then
      if s.params.ifetchAfterStore == .refuse && s.fetchesStored then .refuses (.fetchAfterStore s.pc)
      else .word (s.mem.readLE s.pc 4)
    else .raises ⟨.instructionAccessFault, s.pc⟩
  else .raises ⟨.instructionAddressMisaligned, s.pc⟩

/-- What an unlisted word does (30_encoding.md R88; 60_exceptions.md R223). -/
def unlisted (w : Word) (s : State) : Host.Outcome State Fault Refusal :=
  match s.params.unlistedPolicy with
  | .refuse => .refused (.unlistedWord w)
  | .illegalTrap => raise ⟨.illegalInstruction, w⟩ s

/-- An address rounded down to a multiple of 4. -/
def alignDown (a : Word) : Word := a &&& 0xFFFFFFFC#32

/-- The environment's part of R261 for one instruction: the word stands at `pc`, in bytes that may be fetched and that no
store has written, and the run has not ended. Nothing else changes; `pc` itself only where it is no multiple of 4, from
where nothing is fetched (log 24). -/
def State.placeWord (s : State) (w : Word) : State :=
  let a := alignDown s.pc
  { s with
    pc := a
    mem := s.mem.writeLE a 4 w
    stored := s.stored.filter fun k => !(byteAddrs a 4).any fun b => b.toNat == k
    handover := none
    params := { s.params with
      memMap := if s.permits .x a 4 then s.params.memMap
        else ⟨a.toNat, 4, false, false, true⟩ :: s.params.memMap } }

end Sys2Proof.Machine
end

