-- ==== Sys2Proof/Machine/Step.lean ====
section
/-! DEFINITION. One step of the machine (00_scope.md R16): fetch, decode, execute, as one atomic transition. -/

namespace Sys2Proof.Machine

/-- Decode the fetched word and execute it (R16 steps 2 to 4; 30_encoding.md R87, R88). -/
def runWord (w : Word) (s : State) : Host.Outcome State Fault Refusal :=
  match decodeWord s.params w with
  | .ok i => exec i s
  | .error _ => unlisted w s

/-- One step. After a hand-over there is none (60_exceptions.md R226, R232). -/
def step (s : State) : Host.Outcome State Fault Refusal :=
  match s.handover with
  | some h => .fault (.runEnded h)
  | none =>
    match s.fetch with
    | .raises h => raise h s
    | .refuses r => .refused r
    | .word w => runWord w s

/-- The state with the instruction whose bits are `w` (bits from `nbits` up zero) where the next step fetches. -/
def State.withFetchWord (s : State) (nbits w : Nat) : State :=
  s.placeWord (BitVec.ofNat 32 (w % 2 ^ nbits))

end Sys2Proof.Machine
end

