-- ==== Sys2Proof/Machine/Assembler.lean ====
section
/-! DEFINITION. What stands between assembly and words: operand ranges and label offsets (30_encoding.md R86, R92,
R93; 42_control.md R151), the twelve pseudoinstructions (44_pseudoinstructions.md R190 to R202), and running an
expansion. None of it reaches the machine (R190). -/

namespace Sys2Proof.Machine

/-! ### Operand ranges (R93) -/

/-- The 12-bit field of a signed `imm` in `-2048 .. 2047`; out of range it cannot be encoded. -/
def assembleImm (v : Int) : Option (BitVec 12) :=
  if -2048 ≤ v ∧ v ≤ 2047 then some (BitVec.ofInt 12 v) else none

/-- The 5-bit field of a shift amount in `0 .. 31`. -/
def assembleShamt (v : Nat) : Option (BitVec 5) :=
  if v ≤ 31 then some (BitVec.ofNat 5 v) else none

/-- The 20-bit field of an `immu` in `0 .. 1048575`. -/
def assembleImmu (v : Nat) : Option (BitVec 20) :=
  if v ≤ 1048575 then some (BitVec.ofNat 20 v) else none

/-- The signed distance `address(label) - address(this instruction)` (42_control.md R151). -/
def labelDistance (pc label : Word) : Int := (label - pc).toInt

/-- The offset field of a branch at `pc` to `label`: within `-4096 .. +4094` bytes, at an even distance. -/
def assembleBranchOffset (pc label : Word) : Option (BitVec 13) :=
  if -4096 ≤ labelDistance pc label ∧ labelDistance pc label ≤ 4094 ∧ labelDistance pc label % 2 = 0 then
    some (BitVec.ofInt 13 (labelDistance pc label))
  else none

/-- The offset field of a `jal` at `pc` to `label`: within `-1048576 .. +1048574` bytes, at an even distance. -/
def assembleJalOffset (pc label : Word) : Option (BitVec 21) :=
  if -1048576 ≤ labelDistance pc label ∧ labelDistance pc label ≤ 1048574 ∧ labelDistance pc label % 2 = 0 then
    some (BitVec.ofInt 21 (labelDistance pc label))
  else none

/-! ### Pseudoinstructions -/

/-- The twelve rows of Table 6. A label is given as the offset the assembler encodes; `la` takes the address of its
`auipc` and of its label. `jal` is the one-operand form (R194). -/
inductive Pseudo where
  | beqz (rs1 : Reg) (offset : BitVec 13)
  | bnez (rs1 : Reg) (offset : BitVec 13)
  | j (offset : BitVec 21)
  | jal (offset : BitVec 21)
  | jr (rs1 : Reg)
  | la (rd : Reg) (here label : Word)
  | li (rd : Reg) (v : Word)
  | mv (rd rs1 : Reg)
  | neg (rd rs1 : Reg)
  | nop
  | not (rd rs1 : Reg)
  | ret
  deriving DecidableEq, Repr

/-- `lo = v[11:0]`, the immediate of the `addi` (R196, R197). UNVERIFIED (log 27). -/
def loPart (v : Word) : BitVec 12 := v.extractLsb' 0 12

/-- `hi = ((v - lo) >> 12)[19:0]` with `lo` read as signed (R196, R197). UNVERIFIED (log 27). -/
def hiPart (v : Word) : BitVec 20 := (v - immI (loPart v)).extractLsb' 12 20

/-- `li` (R197): one `addi` for a value in `-2048 .. 2047`; else `lui`, and `addi` unless `lo = 0`. -/
def expandLi (rd : Reg) (v : Word) : List Instr :=
  if -2048 ≤ v.toInt ∧ v.toInt ≤ 2047 then [.addi rd 0#5 (loPart v)]
  else if loPart v = 0#12 then [.lui rd (hiPart v)]
  else [.lui rd (hiPart v), .addi rd rd (loPart v)]

/-- `la` (R196): always both instructions. -/
def expandLa (rd : Reg) (here label : Word) : List Instr :=
  [.auipc rd (hiPart (label - here)), .addi rd rd (loPart (label - here))]

/-- The expansion of a pseudoinstruction (R190 to R202). `ra` is `x1` (10_state.md R23). -/
def expand : Pseudo → List Instr
  | .beqz rs1 offset => [.beq rs1 0#5 offset]
  | .bnez rs1 offset => [.bne rs1 0#5 offset]
  | .j offset => [.jal 0#5 offset]
  | .jal offset => [.jal 1#5 offset]
  | .jr rs1 => [.jalr 0#5 rs1 0#12]
  | .la rd here label => expandLa rd here label
  | .li rd v => expandLi rd v
  | .mv rd rs1 => [.addi rd rs1 0#12]
  | .neg rd rs1 => [.sub rd 0#5 rs1]
  | .nop => [.addi 0#5 0#5 0#12]
  | .not rd rs1 => [.xori rd rs1 (BitVec.ofInt 12 (-1))]
  | .ret => [.jalr 0#5 1#5 0#12]

/-- Execute instructions one after another, stopping at the first that gives no next state. -/
def execAll : List Instr → State → Host.Outcome State Fault Refusal
  | [], s => .next s
  | i :: is, s =>
    match exec i s with
    | .next t => execAll is t
    | .fault f => .fault f
    | .refused r => .refused r

end Sys2Proof.Machine
end

