-- ==== Sys2Proof/Safety.lean ====
section
/-! DEFINITION. The terms claims are stated in: what a step leaves unchanged, the invariant, and the ends of a run
(60_exceptions.md R227, R232). -/

namespace Sys2Proof.Machine

/-! ### What changes between two states -/

/-- Every register reads the same. -/
def SameRegs (s t : State) : Prop := ∀ r : Reg, t.x r = s.x r

/-- Every byte of memory reads the same. -/
def SameBytes (s t : State) : Prop := ∀ a : Word, t.byte a = s.byte a

/-- The record of stored bytes, the hand-over and the parameters are the same. -/
def SameRest (s t : State) : Prop := t.stored = s.stored ∧ t.handover = s.handover ∧ t.params = s.params

/-- `t` is `s` with the one effect `x[rd] <- v` on the registers (discarded for `x0`, 10_state.md R21), memory and all
else but `pc` unchanged. -/
structure RegResult (s t : State) (rd : Reg) (v : Word) : Prop where
  result : rd ≠ 0#5 → t.x rd = v
  zero : t.x 0#5 = 0#32
  others : ∀ r : Reg, r ≠ rd → t.x r = s.x r
  bytes : SameBytes s t
  rest : SameRest s t

/-- `t` is the hand-over of `h` by the state `s` (60_exceptions.md R226, R227): no register, no byte of memory and not
`pc` differs. -/
structure HandsOver (s t : State) (h : Handover) : Prop where
  record : t.handover = some h
  pc : t.pc = s.pc
  regs : SameRegs s t
  bytes : SameBytes s t
  stored : t.stored = s.stored
  params : t.params = s.params

/-- A byte address is among the `n` bytes at `a`, each address modulo 2^32. -/
def InAccess (a : Word) (n : Nat) (b : Word) : Prop := ∃ i < n, b = a + BitVec.ofNat 32 i

/-- Every byte of the `n`-byte access at `a` has the permission `p` in `MemMap` (20_memory.md R43, R44, R47). -/
def Permitted (s : State) (p : Perm) (a : Word) (n : Nat) : Prop :=
  ∀ i < n, permitsByte s.params.memMap p (a + BitVec.ofNat 32 i) = true

/-- An access of `n` bytes at `a` is not stopped by alignment: a multiple of `n`, or `MISALIGNED_DATA = emulate`
(20_memory.md R46). -/
def AlignmentAllows (s : State) (a : Word) (n : Nat) : Prop :=
  a.toNat % n = 0 ∨ s.params.misalignedData = .emulate

/-! ### How an instruction completes or raises -/

/-- The outcome `o` of `s` is `x[rd] <- v` (discarded for `x0`), `pc <- target`, and nothing else. -/
def WroteReg (o : Host.Outcome State Fault Refusal) (s : State) (rd : Reg) (v target : Word) : Prop :=
  ∃ t, o = .next t ∧ RegResult s t rd v ∧ t.pc = target

/-- The outcome `o` of `s` is the hand-over of `h`, nothing changed. -/
def HandedOver (o : Host.Outcome State Fault Refusal) (s : State) (h : Handover) : Prop :=
  ∃ t, o = .next t ∧ HandsOver s t h

/-- The outcome `o` of `s` is `pc <- target` and nothing else. -/
def MovedPc (o : Host.Outcome State Fault Refusal) (s : State) (target : Word) : Prop :=
  ∃ t, o = .next t ∧ t.pc = target ∧ SameRegs s t ∧ SameBytes s t ∧ SameRest s t

/-- The instruction completes with `x[rd] <- v`, `pc <- pc + 4` and nothing else (00_scope.md R16). -/
def Completes (i : Instr) (s : State) (rd : Reg) (v : Word) : Prop := WroteReg (exec i s) s rd v (s.pc + 4#32)

/-- The instruction raises `E(info)`: the hand-over, nothing changed (00_scope.md R14). -/
def Raises (i : Instr) (s : State) (h : Handover) : Prop := HandedOver (exec i s) s h

/-- The instruction moves `pc` to `target` and changes nothing else. -/
def MovesPc (i : Instr) (s : State) (target : Word) : Prop := MovedPc (exec i s) s target

/-- The outcome of a jump to `target` that links to `x[rd]`: the link and `pc`, or the misaligned raise with the link
unwritten (42_control.md R152). -/
def JumpOutcome (o : Host.Outcome State Fault Refusal) (s : State) (rd : Reg) (target : Word) : Prop :=
  (target.toNat % 4 = 0 → WroteReg o s rd (s.pc + 4#32) target) ∧
  (target.toNat % 4 ≠ 0 → HandedOver o s ⟨.instructionAddressMisaligned, target⟩)

/-- The outcome of a branch to `target` with the condition `taken`: taken to an aligned target; taken to a misaligned one;
not taken (42_control.md R152). -/
def BranchOutcome (o : Host.Outcome State Fault Refusal) (s : State) (taken : Prop) (target : Word) : Prop :=
  (taken → target.toNat % 4 = 0 → MovedPc o s target) ∧
  (taken → target.toNat % 4 ≠ 0 → HandedOver o s ⟨.instructionAddressMisaligned, target⟩) ∧
  (¬taken → MovedPc o s (s.pc + 4#32))

/-- `t` is `s` after a store of `v` to the `n` bytes at `ea`, little-endian: those bytes, the record that a store has
written them, and `pc <- pc + 4`; nothing else (20_memory.md R44, R57). -/
structure StoreResult (s t : State) (ea : Word) (n : Nat) (v : BitVec (8 * n)) : Prop where
  inside : ∀ i < n, t.byte (ea + BitVec.ofNat 32 i) = v.extractLsb' (8 * i) 8
  outside : ∀ b, ¬InAccess ea n b → t.byte b = s.byte b
  stored : ∀ k, k ∈ t.stored ↔ k ∈ s.stored ∨ ∃ i < n, k = (ea + BitVec.ofNat 32 i).toNat
  regs : SameRegs s t
  pc : t.pc = s.pc + 4#32
  handover : t.handover = s.handover
  params : t.params = s.params

/-! ### The shape of an instruction's rule: its row of the opcode map, and its effect -/

/-- Every word of a row of R87 decodes, under any parameters, to the instruction `f` builds from its fields. -/
def DecodesAs (pattern mask : Word) (f : Word → Instr) : Prop :=
  ∀ (c : Params) (w : Word), w &&& mask = pattern → decodeWord c w = .ok (f w)

/-- An R-type rule of 40_arithmetic.md: the row, and the result `v` that `result x[rs1] x[rs2] v` fixes. -/
def RegRegRule (pattern : Word) (mk : Reg → Reg → Reg → Instr) (result : Word → Word → Word → Prop) : Prop :=
  DecodesAs pattern 0xFE00707F#32 (fun w => mk (rdOf w) (rs1Of w) (rs2Of w)) ∧
  ∀ (s : State) (rd rs1 rs2 : Reg), ∃ v, result (s.x rs1) (s.x rs2) v ∧ Completes (mk rd rs1 rs2) s rd v

/-- An I-type rule of 40_arithmetic.md: `result x[rs1] imm v` with the 12-bit `imm` read as signed. -/
def RegImmRule (pattern : Word) (mk : Reg → Reg → BitVec 12 → Instr) (result : Word → Int → Word → Prop) : Prop :=
  DecodesAs pattern 0x0000707F#32 (fun w => mk (rdOf w) (rs1Of w) (w.extractLsb' 20 12)) ∧
  ∀ (s : State) (rd rs1 : Reg) (imm : BitVec 12), ∃ v, result (s.x rs1) imm.toInt v ∧ Completes (mk rd rs1 imm) s rd v

/-- An I*-type rule of 40_arithmetic.md: `result x[rs1] amount v` with the amount `inst[24:20]` read as unsigned. -/
def ShiftImmRule (pattern : Word) (mk : Reg → Reg → BitVec 5 → Instr) (result : Word → Nat → Word → Prop) : Prop :=
  DecodesAs pattern 0xFE00707F#32 (fun w => mk (rdOf w) (rs1Of w) (w.extractLsb' 20 5)) ∧
  ∀ (s : State) (rd rs1 : Reg) (shamt : BitVec 5),
    ∃ v, result (s.x rs1) shamt.toNat v ∧ Completes (mk rd rs1 shamt) s rd v

/-- A load's rule of 41_loads_stores.md, `n` bytes at `ea = x[rs1] + imm_I`: the row; the misaligned trap; the access
fault; else `x[rd] <- value`, where `value` reads the bytes of memory at an address. -/
def LoadRule (pattern : Word) (mk : Reg → Reg → BitVec 12 → Instr) (n : Nat) (value : (Word → Byte) → Word → Word) :
    Prop :=
  DecodesAs pattern 0x0000707F#32 (fun w => mk (rdOf w) (rs1Of w) (w.extractLsb' 20 12)) ∧
  ∀ (s : State) (rd rs1 : Reg) (imm : BitVec 12),
    let ea := s.loadAddr rs1 imm
    (¬AlignmentAllows s ea n → Raises (mk rd rs1 imm) s ⟨.loadAddressMisaligned, ea⟩) ∧
    (AlignmentAllows s ea n → ¬Permitted s .r ea n → Raises (mk rd rs1 imm) s ⟨.loadAccessFault, ea⟩) ∧
    (AlignmentAllows s ea n → Permitted s .r ea n → Completes (mk rd rs1 imm) s rd (value s.byte ea))

/-- A store's rule of 41_loads_stores.md, the low `8n` bits of `x[rs2]` to the `n` bytes at `ea = x[rs1] + imm_S`. -/
def StoreRule (pattern : Word) (mk : Reg → Reg → BitVec 12 → Instr) (n : Nat) : Prop :=
  DecodesAs pattern 0x0000707F#32 (fun w => mk (rs2Of w) (rs1Of w) (w.extractLsb' 25 7 ++ w.extractLsb' 7 5)) ∧
  ∀ (s : State) (rs2 rs1 : Reg) (imm : BitVec 12),
    let ea := s.storeAddr rs1 imm
    (¬AlignmentAllows s ea n → Raises (mk rs2 rs1 imm) s ⟨.storeAddressMisaligned, ea⟩) ∧
    (AlignmentAllows s ea n → ¬Permitted s .w ea n → Raises (mk rs2 rs1 imm) s ⟨.storeAccessFault, ea⟩) ∧
    (AlignmentAllows s ea n → Permitted s .w ea n →
      ∃ t, exec (mk rs2 rs1 imm) s = .next t ∧ StoreResult s t ea n ((s.x rs2).setWidth (8 * n)))

/-- A conditional branch's rule of 42_control.md: the row; taken to an aligned target; taken to a misaligned one; not
taken. The target is `pc` plus the 13-bit offset read as signed, modulo 2^32 (R151). -/
def BranchRule (pattern : Word) (mk : Reg → Reg → BitVec 13 → Instr) (taken : Word → Word → Prop) : Prop :=
  DecodesAs pattern 0x0000707F#32 (fun w => mk (rs1Of w) (rs2Of w)
    (w.extractLsb' 31 1 ++ w.extractLsb' 7 1 ++ w.extractLsb' 25 6 ++ w.extractLsb' 8 4 ++ 0#1)) ∧
  ∀ (s : State) (rs1 rs2 : Reg) (offset : BitVec 13),
    BranchOutcome (exec (mk rs1 rs2 offset) s) s (taken (s.x rs1) (s.x rs2)) (s.pc + BitVec.ofInt 32 offset.toInt)

/-- A jump's effect (42_control.md R159, R160): the link and `pc`, or the misaligned raise with the link unwritten. -/
def JumpRule (i : Instr) (s : State) (rd : Reg) (target : Word) : Prop := JumpOutcome (exec i s) s rd target

/-- The registers an instruction names in `rs1` or `rs2` (10_state.md R22). -/
def sources : Instr → List Reg
  | .add _ rs1 rs2 | .sub _ rs1 rs2 | .and _ rs1 rs2 | .or _ rs1 rs2 | .xor _ rs1 rs2 => [rs1, rs2]
  | .sll _ rs1 rs2 | .srl _ rs1 rs2 | .sra _ rs1 rs2 | .slt _ rs1 rs2 | .sltu _ rs1 rs2 => [rs1, rs2]
  | .mul _ rs1 rs2 => [rs1, rs2]
  | .addi _ rs1 _ | .andi _ rs1 _ | .ori _ rs1 _ | .xori _ rs1 _ => [rs1]
  | .slli _ rs1 _ | .srli _ rs1 _ | .srai _ rs1 _ | .slti _ rs1 _ | .sltiu _ rs1 _ => [rs1]
  | .lb _ rs1 _ | .lbu _ rs1 _ | .lh _ rs1 _ | .lhu _ rs1 _ | .lw _ rs1 _ => [rs1]
  | .sb rs2 rs1 _ | .sh rs2 rs1 _ | .sw rs2 rs1 _ => [rs1, rs2]
  | .beq rs1 rs2 _ | .bne rs1 rs2 _ | .blt rs1 rs2 _ => [rs1, rs2]
  | .bltu rs1 rs2 _ | .bge rs1 rs2 _ | .bgeu rs1 rs2 _ => [rs1, rs2]
  | .jalr _ rs1 _ => [rs1]
  | .jal _ _ | .auipc _ _ | .lui _ _ | .ebreak | .ecall => []

/-- Whether the exception `h` is one the instruction `i`, standing at `pc`, can raise in its execute step, with the `info`
of the table of 60_exceptions.md R220. -/
def MayRaise (i : Instr) (s : State) (h : Handover) : Prop :=
  match h.cause with
  | .instructionAddressMisaligned =>
    h.info.toNat % 4 ≠ 0 ∧
      ((∃ rs1 rs2 offset, h.info = s.branchTarget offset ∧
          (i = .beq rs1 rs2 offset ∧ s.x rs1 = s.x rs2 ∨
            i = .bne rs1 rs2 offset ∧ s.x rs1 ≠ s.x rs2 ∨
            i = .blt rs1 rs2 offset ∧ (s.x rs1).toInt < (s.x rs2).toInt ∨
            i = .bltu rs1 rs2 offset ∧ (s.x rs1).toNat < (s.x rs2).toNat ∨
            i = .bge rs1 rs2 offset ∧ (s.x rs1).toInt ≥ (s.x rs2).toInt ∨
            i = .bgeu rs1 rs2 offset ∧ (s.x rs1).toNat ≥ (s.x rs2).toNat)) ∨
        (∃ rd offset, i = .jal rd offset ∧ h.info = s.jalTarget offset) ∨
        ∃ rd rs1 imm, i = .jalr rd rs1 imm ∧ h.info = s.jalrTarget rs1 imm)
  | .breakpoint => i = .ebreak ∧ h.info = s.pc
  | .environmentCall => i = .ecall ∧ h.info = s.pc
  | .loadAddressMisaligned =>
    s.params.misalignedData = .trap ∧ ∃ rd rs1 imm, h.info = s.loadAddr rs1 imm ∧
      ((i = .lh rd rs1 imm ∨ i = .lhu rd rs1 imm) ∧ h.info.toNat % 2 ≠ 0 ∨
        i = .lw rd rs1 imm ∧ h.info.toNat % 4 ≠ 0)
  | .loadAccessFault =>
    ∃ rd rs1 imm, h.info = s.loadAddr rs1 imm ∧
      ((i = .lb rd rs1 imm ∨ i = .lbu rd rs1 imm) ∧ ¬Permitted s .r h.info 1 ∨
        (i = .lh rd rs1 imm ∨ i = .lhu rd rs1 imm) ∧ ¬Permitted s .r h.info 2 ∨
        i = .lw rd rs1 imm ∧ ¬Permitted s .r h.info 4)
  | .storeAddressMisaligned =>
    s.params.misalignedData = .trap ∧ ∃ rs2 rs1 imm, h.info = s.storeAddr rs1 imm ∧
      (i = .sh rs2 rs1 imm ∧ h.info.toNat % 2 ≠ 0 ∨ i = .sw rs2 rs1 imm ∧ h.info.toNat % 4 ≠ 0)
  | .storeAccessFault =>
    ∃ rs2 rs1 imm, h.info = s.storeAddr rs1 imm ∧
      (i = .sb rs2 rs1 imm ∧ ¬Permitted s .w h.info 1 ∨ i = .sh rs2 rs1 imm ∧ ¬Permitted s .w h.info 2 ∨
        i = .sw rs2 rs1 imm ∧ ¬Permitted s .w h.info 4)
  | .illegalInstruction => False
  | .instructionAccessFault => False

/-! ### The invariant -/

/-- What every step keeps: memory in canonical form, `pc` a multiple of 4 (10_state.md R27), the record of stored bytes
ascending and inside the space. -/
structure State.Inv (s : State) : Prop where
  mem : s.mem.wf
  pc : s.pc.toNat % 4 = 0
  stored : storedWf s.stored

/-- The bytes no store has written stand as `init` has them: the program as it was loaded (20_memory.md R57). -/
def AsLoaded (init : Memory) (s : State) : Prop := ∀ a : Word, a.toNat ∉ s.stored → s.byte a = init.read a.toNat

/-! ### Runs (60_exceptions.md R232) -/

/-- A reset state for some choice of what the spec leaves open (70_reset_and_hazards.md R260): `RESET_PC` a multiple of 4
(10_state.md R34), `InitMem` in canonical form. -/
def IsReset (s : State) : Prop :=
  ∃ (c : Params) (resetPc : Word) (xs : Regs) (initMem : Memory),
    resetPc.toNat % 4 = 0 ∧ initMem.wf ∧ s = State.resetWith c resetPc xs initMem

/-- `t` comes after `s` in a run. -/
inductive Reaches (s : State) : State → Prop where
  | refl : Reaches s s
  | next {t u : State} : Reaches s t → step t = .next u → Reaches s u

/-- The run has ended on purpose: `EnvironmentCall` or `Breakpoint` (R232). -/
def EndsOnPurpose (t : State) : Prop :=
  ∃ h, t.handover = some h ∧ (h.cause = .environmentCall ∨ h.cause = .breakpoint)

/-- The run has ended in a fault: any other exception (R232). -/
def EndsInFault (t : State) : Prop :=
  ∃ h, t.handover = some h ∧ h.cause ≠ .environmentCall ∧ h.cause ≠ .breakpoint

/-- The run has no meaning from here: the step is refused (R232). -/
def HasNoMeaning (t : State) : Prop := ∃ r, step t = .refused r

/-- A run from `s` is safe: it never ends in a fault and never loses its meaning. -/
def SafeFrom (s : State) : Prop := ∀ t, Reaches s t → ¬EndsInFault t ∧ ¬HasNoMeaning t

end Sys2Proof.Machine
end

