-- ==== Sys2Proof/Certificates/Slice0/Obligations.lean ====
section
/-! DEFINITION. The statements for the provers. Each docstring names the rule of spec/ it formalises. Every statement is
over every State, so over every value of the OPEN parameters of 00_scope.md R7; none rests on a value of
Machine/Defaults.lean but the two that say so. -/

open Sys2Proof Sys2Proof.Machine

/-! ### Encoding -/

/-- 30_encoding.md sections 2 to 4: decoding the encoding of a well-formed instruction gives it back, under any
parameters, from a word and from its four bytes in memory order. -/
def Obligations.DecodingAnEncodingGivesTheInstructionBack : Prop :=
  ∀ (c : Params) (i : Instr) (rest : List Byte), i.wellFormed c = true →
    decodeWord c (encode c i) = .ok i ∧ decodeBytes c (bytesOfWord (encode c i) ++ rest) = .ok (i, rest)

/-- 30_encoding.md sections 2 to 5: a word that decodes is the encoding of what it decodes to, which is well-formed; so
every bit of a listed word is read. -/
def Obligations.EveryListedWordIsTheEncodingOfItsInstruction : Prop :=
  ∀ (c : Params) (w : Word) (i : Instr), decodeWord c w = .ok i → i.wellFormed c = true ∧ encode c i = w

/-- 30_encoding.md R87: a word is the instruction of the row with `inst & mask == match`; no two rows both match. Three
things in the rows are the spec's own decisions: which word is `ecall` and which `ebreak` (D17, log 12), the mask of the
two (D16, log 25), the row of `mul` (D27, log 13). -/
def Obligations.TheOpcodeMapDecidesDecoding : Prop :=
  ∀ (c : Params) (w : Word),
    (∀ row ∈ opcodeRows c, row.covers w = true → ∃ i, decodeWord c w = .ok i ∧ i.mnemonic = row.mnemonic) ∧
    (∀ i, decodeWord c w = .ok i → ∃ row ∈ opcodeRows c, row.covers w = true ∧ row.mnemonic = i.mnemonic) ∧
    (∀ row ∈ opcodeRows c, ∀ row' ∈ opcodeRows c, row.covers w = true → row'.covers w = true → row = row')

/-- 30_encoding.md R80 to R85: the value of each immediate, from the bits of the word. Sign extension and the zero bit
0 are the spec's own decisions D2, D10 (log 15). -/
def Obligations.ImmediatesAreAssembledFromTheWord : Prop :=
  ∀ w : Word,
    (immI (immIOf w)).toInt = (w.extractLsb' 20 12).toInt ∧
    immShiftAmount (rs2Of w) = (w.extractLsb' 20 5).toNat ∧
    (immS (immSOf w)).toInt = (w.extractLsb' 25 7).toInt * 2 ^ 5 + (w.extractLsb' 7 5).toNat ∧
    (immB (immBOf w)).toInt =
      -((w.extractLsb' 31 1).toNat * 2 ^ 12 : Int) + (w.extractLsb' 7 1).toNat * 2 ^ 11 +
        (w.extractLsb' 25 6).toNat * 2 ^ 5 + (w.extractLsb' 8 4).toNat * 2 ∧
    (immU (immUOf w)).toNat = (w.extractLsb' 12 20).toNat * 2 ^ 12 ∧
    (immJ (immJOf w)).toInt =
      -((w.extractLsb' 31 1).toNat * 2 ^ 20 : Int) + (w.extractLsb' 12 8).toNat * 2 ^ 12 +
        (w.extractLsb' 20 1).toNat * 2 ^ 11 + (w.extractLsb' 21 10).toNat * 2

/-- 30_encoding.md R89: the unlisted words nearest to listed ones, class by class (a) to (i). The list is the spec's
own derivation from R87, and rests on its decisions D16 (log 25) for class (g) and D27 (log 13) for `mul` in class (a). -/
def Obligations.NearbyWordsAreUnlisted : Prop :=
  ∀ (c : Params) (w : Word),
    let rejected := ∃ e, decodeWord c w = .error e
    (opcodeOf w = 0b0110011#7 →
      (funct7Of w ≠ 0b0000000#7 ∧ funct7Of w ≠ 0b0100000#7 ∧ ¬(funct7Of w = 0b0000001#7 ∧ c.extMul = true) ∨
        funct7Of w = 0b0100000#7 ∧ funct3Of w ≠ 0b000#3 ∧ funct3Of w ≠ 0b101#3 ∨
        funct7Of w = 0b0000001#7 ∧ funct3Of w ≠ 0b000#3) → rejected) ∧
    (opcodeOf w = 0b0010011#7 →
      ((funct3Of w = 0b001#3 ∧ funct7Of w ≠ 0b0000000#7 ∨
        funct3Of w = 0b101#3 ∧ funct7Of w ≠ 0b0000000#7 ∧ funct7Of w ≠ 0b0100000#7) ↔ rejected)) ∧
    (opcodeOf w = 0b0000011#7 → funct3Of w ∈ [0b011#3, 0b110#3, 0b111#3] → rejected) ∧
    (opcodeOf w = 0b0100011#7 → 3 ≤ (funct3Of w).toNat → rejected) ∧
    (opcodeOf w = 0b1100011#7 → funct3Of w ∈ [0b010#3, 0b011#3] → rejected) ∧
    (opcodeOf w = 0b1100111#7 → funct3Of w ≠ 0b000#3 → rejected) ∧
    (opcodeOf w = 0b1110011#7 → w ≠ 0x00000073#32 → w ≠ 0x00100073#32 → rejected) ∧
    (opcodeOf w ∉ [0b0000011#7, 0b0010011#7, 0b0010111#7, 0b0100011#7, 0b0110011#7, 0b0110111#7, 0b1100011#7,
      0b1100111#7, 0b1101111#7, 0b1110011#7] → rejected) ∧
    (w = 0x00000000#32 ∨ w = 0xFFFFFFFF#32 → rejected)

/-- 30_encoding.md R86: encoding each immediate layout is the inverse of reading it, with the four worked cases. The
positions are the spec's own derivation from R80 to R85. -/
def Obligations.EncodingAnImmediateIsTheInverse : Prop :=
  (∀ (imm : BitVec 12) (rs1 : Reg) (f3 : BitVec 3) (rd : Reg) (op : BitVec 7),
    (encI imm rs1 f3 rd op).extractLsb' 20 12 = imm) ∧
  (∀ (imm : BitVec 12) (rs2 rs1 : Reg) (f3 : BitVec 3) (op : BitVec 7),
    (encS imm rs2 rs1 f3 op).extractLsb' 25 7 = imm.extractLsb' 5 7 ∧
      (encS imm rs2 rs1 f3 op).extractLsb' 7 5 = imm.extractLsb' 0 5) ∧
  (∀ (off : BitVec 13) (rs2 rs1 : Reg) (f3 : BitVec 3) (op : BitVec 7),
    (encB off rs2 rs1 f3 op).extractLsb' 31 1 = off.extractLsb' 12 1 ∧
      (encB off rs2 rs1 f3 op).extractLsb' 25 6 = off.extractLsb' 5 6 ∧
      (encB off rs2 rs1 f3 op).extractLsb' 8 4 = off.extractLsb' 1 4 ∧
      (encB off rs2 rs1 f3 op).extractLsb' 7 1 = off.extractLsb' 11 1) ∧
  (∀ (off : BitVec 21) (rd : Reg) (op : BitVec 7),
    (encJ off rd op).extractLsb' 31 1 = off.extractLsb' 20 1 ∧
      (encJ off rd op).extractLsb' 21 10 = off.extractLsb' 1 10 ∧
      (encJ off rd op).extractLsb' 20 1 = off.extractLsb' 11 1 ∧
      (encJ off rd op).extractLsb' 12 8 = off.extractLsb' 12 8) ∧
  (∀ (immu : BitVec 20) (rd : Reg) (op : BitVec 7), (encU immu rd op).extractLsb' 12 20 = immu) ∧
  (∀ (c : Params) (rs1 rs2 rd : Reg) (off : BitVec 13) (off' : BitVec 21),
    (∀ mk ∈ [Instr.beq, .bne, .blt, .bltu, .bge, .bgeu],
      (mk rs1 rs2 off).wellFormed c = true ↔ off.toNat % 2 = 0) ∧
    ((Instr.jal rd off').wellFormed c = true ↔ off'.toNat % 2 = 0)) ∧
  (∀ c : Params,
    encode c (.addi 5#5 6#5 (BitVec.ofInt 12 (-1))) = 0xFFF30293#32 ∧
      encode c (.sw 7#5 6#5 (BitVec.ofInt 12 (-2048))) = 0x80732023#32 ∧
      encode c (.bne 1#5 2#5 (BitVec.ofInt 13 (-4))) = 0xFE209EE3#32 ∧
      encode c (.jal 1#5 2048#21) = 0x001000EF#32)

/-- 95_test_vectors.md 2.0 to 2.7: words of each family decode to the instruction they stand for (a sanity statement, at
the default parameters). -/
def Obligations.SampleWordsDecode : Prop :=
  decodeTableWord 32 0x01DF0FB3 = some (.add 31#5 30#5 29#5) ∧
  decodeTableWord 32 0x403100B3 = some (.sub 1#5 2#5 3#5) ∧
  decodeTableWord 32 0x80030293 = some (.addi 5#5 6#5 0x800#12) ∧
  decodeTableWord 32 0x41F35293 = some (.srai 5#5 6#5 31#5) ∧
  decodeTableWord 32 0xFFC32283 = some (.lw 5#5 6#5 0xFFC#12) ∧
  decodeTableWord 32 0xFE732E23 = some (.sw 7#5 6#5 0xFFC#12) ∧
  decodeTableWord 32 0xFE029CE3 = some (.bne 5#5 0#5 0x1FF8#13) ∧
  decodeTableWord 32 0xFF9FF06F = some (.jal 0#5 0x1FFFF8#21) ∧
  decodeTableWord 32 0xFFC280E7 = some (.jalr 1#5 5#5 0xFFC#12) ∧
  decodeTableWord 32 0xFFFFF297 = some (.auipc 5#5 0xFFFFF#20) ∧
  decodeTableWord 32 0x00000073 = some .ecall ∧
  decodeTableWord 32 0x00100073 = some .ebreak ∧
  decodeTableWord 32 0x022081B3 = some (.mul 3#5 1#5 2#5)

/-! ### The step -/

/-- 00_scope.md R16, 20_memory.md R47: where the four bytes at `pc` may be fetched and decode, in memory order, to `i`,
the step is `exec i`, and nothing is added around it. -/
def Obligations.StepRunsTheDecodedInstruction : Prop :=
  ∀ (s : State) (i : Instr), s.handover = none → s.pc.toNat % 4 = 0 → Permitted s .x s.pc 4 →
    (s.params.ifetchAfterStore = .coherent ∨ ∀ k < 4, (s.pc + BitVec.ofNat 32 k).toNat ∉ s.stored) →
    decodeBytes s.params [s.byte s.pc, s.byte (s.pc + 1#32), s.byte (s.pc + 2#32), s.byte (s.pc + 3#32)] =
      .ok (i, []) →
    step s = exec i s

/-- 20_memory.md R47: the four cases of a fetch, in order. Rests on the spec's own decisions D14, D25, D26 (logs 11,
14, 22). -/
def Obligations.FetchChecksThenReadsLittleEndian : Prop :=
  ∀ s : State,
    let stale := ∃ k < 4, (s.pc + BitVec.ofNat 32 k).toNat ∈ s.stored
    let refuses := s.params.ifetchAfterStore = .refuse ∧ stale
    (s.pc.toNat % 4 ≠ 0 → s.handover = none →
      ∃ t, step s = .next t ∧ HandsOver s t ⟨.instructionAddressMisaligned, s.pc⟩) ∧
    (s.pc.toNat % 4 = 0 → ¬Permitted s .x s.pc 4 → s.handover = none →
      ∃ t, step s = .next t ∧ HandsOver s t ⟨.instructionAccessFault, s.pc⟩) ∧
    (s.pc.toNat % 4 = 0 → Permitted s .x s.pc 4 → refuses → s.handover = none →
      step s = .refused (.fetchAfterStore s.pc)) ∧
    (s.pc.toNat % 4 = 0 → Permitted s .x s.pc 4 → ¬refuses →
      s.fetch = .word (s.byte (s.pc + 3#32) ++ s.byte (s.pc + 2#32) ++ s.byte (s.pc + 1#32) ++ s.byte s.pc))

/-- 60_exceptions.md R223: an unlisted word is refused, or raises `IllegalInstruction(inst)`, by `UNLISTED_POLICY`; no
state changes either way. Rests on the spec's own decision D15 (log 10). -/
def Obligations.UnlistedWordsAreRefusedOrRaise : Prop :=
  ∀ (s : State) (w : Word) (e : Reject), s.handover = none → s.fetch = .word w → decodeWord s.params w = .error e →
    (s.params.unlistedPolicy = .refuse → step s = .refused (.unlistedWord w)) ∧
    (s.params.unlistedPolicy = .illegalTrap → ∃ t, step s = .next t ∧ HandsOver s t ⟨.illegalInstruction, w⟩)

/-- 60_exceptions.md R226, R232 as the model reads them (log 8): after a hand-over there is no step, until a new launch
(R228) clears the record and starts from the environment's choice. -/
def Obligations.ARunEndsAtItsHandoverUntilANewLaunch : Prop :=
  ∀ (s : State) (h : Handover) (l : Launch), s.handover = some h →
    step s = .fault (.runEnded h) ∧
    (s.launch l).handover = none ∧ (s.launch l).pc = l.pc ∧
    (∀ a : Word, (s.launch l).byte a = l.mem.read a.toNat) ∧
    (∀ r : Reg, r ≠ 0#5 → ∃ k : Fin 31, k.val + 1 = r.toNat ∧ (s.launch l).x r = l.regs[k]) ∧
    (∀ f, step (s.launch l) ≠ .fault f)

/-- 70_reset_and_hazards.md R260: the reset state, for every choice of what the spec leaves open; the first step
fetches the word at `RESET_PC`. Rests on the spec's own decision D22 (log 33). -/
def Obligations.ResetGivesTheStateTheSpecGives : Prop :=
  ∀ (c : Params) (resetPc : Word) (xs : Regs) (initMem : Memory), resetPc.toNat % 4 = 0 →
    let s := State.resetWith c resetPc xs initMem
    s.pc = resetPc ∧ s.x 0#5 = 0#32 ∧
    (∀ r : Reg, r ≠ 0#5 → ∃ k : Fin 31, k.val + 1 = r.toNat ∧ s.x r = xs[k]) ∧
    (∀ a : Word, s.byte a = initMem.read a.toNat) ∧ s.stored = [] ∧ s.handover = none ∧
    (Permitted s .x resetPc 4 →
      s.fetch = .word (initMem.read (resetPc + 3#32).toNat ++ initMem.read (resetPc + 2#32).toNat ++
        initMem.read (resetPc + 1#32).toNat ++ initMem.read resetPc.toNat))

/-! ### Invariants and whole-machine rules -/

/-- The invariant holds at every reset state, the model's own among them (its values are log 2, 3, 6, 7). -/
def Obligations.ResetMeetsTheInvariant : Prop :=
  State.reset.Inv ∧ IsReset State.reset ∧ (∀ s, IsReset s → s.Inv) ∧
  ∀ (c : Params) (resetPc : Word) (xs : Regs) (initMem : Memory),
    AsLoaded initMem (State.resetWith c resetPc xs initMem)

/-- 10_state.md R27 and the canonical form of memory: from every state that meets the invariant, a step that gives a
next state gives one that meets it. Rests on the spec's own decision D12 (log 19); the canonical form is the model's.
-/
def Obligations.EveryStepKeepsTheInvariant : Prop :=
  ∀ s t : State, s.Inv → step s = .next t → t.Inv

/-- 10_state.md R27, 60_exceptions.md R220: along every run from a reset state `pc` is a multiple of 4, so the fetch
never raises `InstructionAddressMisaligned`. Rests on the spec's own decision D12 (log 19). -/
def Obligations.PcStaysAlignedAlongEveryRun : Prop :=
  ∀ s t : State, IsReset s → Reaches s t →
    t.pc.toNat % 4 = 0 ∧ t.fetch ≠ .raises ⟨.instructionAddressMisaligned, t.pc⟩

/-- 00_scope.md R16, 60_exceptions.md R226: every instruction has an effect on every state. The form is the model's: that
a raise is a next state too is log 8's, that `exec` runs on a state that has handed over is log 31's. -/
def Obligations.EveryInstructionHasANextState : Prop :=
  ∀ (i : Instr) (s : State), ∃ t, exec i s = .next t

/-- 60_exceptions.md R227: an exception is precise. Where a step or an instruction raises, it has made no write at
all: no register, no byte of memory, not `pc`, not the record of stored bytes; only the hand-over record is new. Rests
on the spec's own decision D19 (log 8). -/
def Obligations.ExceptionsArePrecise : Prop :=
  ∀ (s t : State) (h : Handover), s.handover = none → t.handover = some h →
    ((∃ i, exec i s = .next t) ∨ step s = .next t) →
    HandsOver s t h ∧ t = { s with handover := some h }

/-- 60_exceptions.md R220: the exceptions a step can raise, each with the instruction, the condition and the `info`.
Rests on the spec's own decisions D12, D15, D26, D38 (logs 10, 19, 21, 22). -/
def Obligations.OnlyTheListedCausesAreRaised : Prop :=
  (∀ (i : Instr) (s t : State) (h : Handover), s.handover = none → exec i s = .next t → t.handover = some h →
    MayRaise i s h) ∧
  (∀ (s t : State) (h : Handover), s.handover = none → step s = .next t → t.handover = some h →
    (h = ⟨.instructionAddressMisaligned, s.pc⟩ ∧ s.pc.toNat % 4 ≠ 0) ∨
    (h = ⟨.instructionAccessFault, s.pc⟩ ∧ ¬Permitted s .x s.pc 4) ∨
    (∃ w e, s.fetch = .word w ∧ decodeWord s.params w = .error e ∧ s.params.unlistedPolicy = .illegalTrap ∧
      h = ⟨.illegalInstruction, w⟩) ∨
    (∃ w i, s.fetch = .word w ∧ decodeWord s.params w = .ok i ∧ MayRaise i s h))

/-- 20_memory.md R40, R48: no instruction but a store changes a byte of memory or the record of stored bytes. -/
def Obligations.OnlyStoresChangeMemory : Prop :=
  ∀ (i : Instr) (s t : State), i.isStore = false → exec i s = .next t → SameBytes s t ∧ t.stored = s.stored

/-- 10_state.md R25, R26: an instruction that is no branch or jump and does not raise advances `pc` by 4, modulo 2^32;
nothing but the branches and jumps writes `pc` otherwise. Rests on the spec's own decisions D5, D11 (log 17). -/
def Obligations.OnlyControlInstructionsRedirectPc : Prop :=
  ∀ (i : Instr) (s t : State), i.isControl = false → s.handover = none → exec i s = .next t →
    (t.handover = none → t.pc = s.pc + 4#32) ∧ (t.handover ≠ none → t.pc = s.pc)

/-- 10_state.md R22: an instruction changes no register it does not name in `rd`, and neither reads nor writes a register
it names in no field: any other value there goes through unchanged and changes nothing else. -/
def Obligations.UnnamedRegistersAreNeitherReadNorWritten : Prop :=
  ∀ (i : Instr) (s t : State) (r : Reg), exec i s = .next t → i.rd? ≠ some r →
    t.x r = s.x r ∧
    (r ∉ sources i → ∀ v : Word, exec i (s.setX r v) = .next (t.setX r v))

/-- 10_state.md R21: `x0` reads as zero in every state, and an instruction with `rd = x0` changes no register. Rests
on the spec's own decision D13 (log 20). -/
def Obligations.WritesToX0AreDiscarded : Prop :=
  (∀ s : State, s.x 0#5 = 0#32) ∧
  ∀ (i : Instr) (s t : State), i.rd? = some 0#5 → exec i s = .next t → SameRegs s t

/-- 00_scope.md R7, 20_memory.md R53: no step changes a parameter of the run, and a byte a step changes is recorded as
stored; the record only grows (20_memory.md R57). -/
def Obligations.StepsKeepParametersAndRecordStores : Prop :=
  ∀ s t : State, step s = .next t →
    t.params = s.params ∧ (∀ k ∈ s.stored, k ∈ t.stored) ∧
    ∀ a : Word, t.byte a ≠ s.byte a → a.toNat ∈ t.stored

/-- 20_memory.md R57 with `IFETCH_AFTER_STORE = refuse`: along every run from a reset state, a word fetched is the
word that stood there at reset: the program is fetched as loaded, whatever the run has stored. Rests on the spec's own
decision D25 (log 11). -/
def Obligations.AFetchedWordIsTheWordLoadedBeforeReset : Prop :=
  ∀ (s t : State) (w : Word), IsReset s → s.params.ifetchAfterStore = .refuse → Reaches s t → t.fetch = .word w →
    w = s.byte (t.pc + 3#32) ++ s.byte (t.pc + 2#32) ++ s.byte (t.pc + 1#32) ++ s.byte t.pc

/-! ### Memory -/

/-- 20_memory.md R42: little-endian, for accesses of every width over what a write left, and for instruction fetch.
Rests on the spec's own decision D8 (log 14). -/
def Obligations.MemoryIsLittleEndian : Prop :=
  ∀ (m : Memory) (a : Word) (v : BitVec 32),
    let m' := m.writeLE a 4 v
    m'.readLE a 4 = v ∧
    (∀ i < 4, m'.readLE (a + BitVec.ofNat 32 i) 1 = v.extractLsb' (8 * i) 8) ∧
    (∀ i < 3, m'.readLE (a + BitVec.ofNat 32 i) 2 = v.extractLsb' (8 * i) 16) ∧
    (∀ (s : State) (w : Word), s.mem = m' → s.pc = a → s.fetch = .word w → w = v)

/-- 20_memory.md R43 (and R46): `MemRead`, its checks in order and the value of every byte. Rests on the spec's own
decisions D9, D26 (logs 5, 22). -/
def Obligations.MemReadChecksThenReadsEveryByte : Prop :=
  ∀ (s : State) (a : Word) (n : Nat), n ∈ [1, 2, 4] →
    (¬AlignmentAllows s a n → s.memRead a n = .error ⟨.loadAddressMisaligned, a⟩) ∧
    (AlignmentAllows s a n → ¬Permitted s .r a n → s.memRead a n = .error ⟨.loadAccessFault, a⟩) ∧
    (AlignmentAllows s a n → Permitted s .r a n →
      ∃ v, s.memRead a n = .ok v ∧ ∀ i < n, v.extractLsb' (8 * i) 8 = s.byte (a + BitVec.ofNat 32 i))

/-- 20_memory.md R44 (and R46): `MemWrite`, its checks in order, the bytes it replaces and those it leaves. Rests on
the spec's own decisions D9, D26 (logs 5, 22). -/
def Obligations.MemWriteChecksThenReplacesExactlyItsBytes : Prop :=
  ∀ (s : State) (a : Word) (n : Nat) (v : BitVec (8 * n)), n ∈ [1, 2, 4] →
    (¬AlignmentAllows s a n → s.memWrite a n v = .error ⟨.storeAddressMisaligned, a⟩) ∧
    (AlignmentAllows s a n → ¬Permitted s .w a n → s.memWrite a n v = .error ⟨.storeAccessFault, a⟩) ∧
    (AlignmentAllows s a n → Permitted s .w a n →
      ∃ t, s.memWrite a n v = .ok t ∧
        (∀ i < n, t.byte (a + BitVec.ofNat 32 i) = v.extractLsb' (8 * i) 8) ∧
        (∀ b, ¬InAccess a n b → t.byte b = s.byte b) ∧ SameRegs s t ∧ t.pc = s.pc)

/-- 20_memory.md R45: the effective address of every load and store, modulo 2^32. Rests on the spec's own decision D5
(log 17). -/
def Obligations.EffectiveAddressesWrap : Prop :=
  ∀ (s : State) (rs1 : Reg) (imm : BitVec 12),
    ((s.loadAddr rs1 imm).toNat : Int) = ((s.x rs1).toNat + imm.toInt) % 2 ^ 32 ∧
    ((s.storeAddr rs1 imm).toNat : Int) = ((s.x rs1).toNat + imm.toInt) % 2 ^ 32

/-- 20_memory.md R54 (the spec's own decision D23, log 23): after a store that completes, a load returns the latest store to
each byte. Clause by clause: a word or half-word load of what an `sw` or `sh` wrote; a byte load of any byte that an `sb`,
`sh` or `sw` wrote; a byte load of a byte it left alone. The base registers and immediates may differ; for `rd = x0` the value is discarded. -/
def Obligations.ALoadReturnsTheLatestStore : Prop :=
  ∀ (s t : State) (rs2 rs1 rd base : Reg) (imm imm' : BitVec 12), s.handover = none → t.handover = none →
    let ea := s.storeAddr rs1 imm
    let la := t.loadAddr base imm'
    (exec (.sw rs2 rs1 imm) s = .next t → la = ea → Permitted s .r ea 4 → Completes (.lw rd base imm') t rd (s.x rs2)) ∧
    (exec (.sh rs2 rs1 imm) s = .next t → la = ea → Permitted s .r ea 2 →
      Completes (.lh rd base imm') t rd (BitVec.ofInt 32 ((s.x rs2).extractLsb' 0 16).toInt) ∧
      Completes (.lhu rd base imm') t rd (BitVec.ofNat 32 ((s.x rs2).toNat % 2 ^ 16))) ∧
    (∀ p ∈ [(Instr.sb rs2 rs1 imm, 1), (.sh rs2 rs1 imm, 2), (.sw rs2 rs1 imm, 4)], exec p.1 s = .next t →
      Permitted s .r la 1 →
      (∀ k < p.2, la = ea + BitVec.ofNat 32 k →
        Completes (.lb rd base imm') t rd (BitVec.ofInt 32 ((s.x rs2).extractLsb' (8 * k) 8).toInt) ∧
        Completes (.lbu rd base imm') t rd (BitVec.ofNat 32 ((s.x rs2).extractLsb' (8 * k) 8).toNat)) ∧
      (¬InAccess ea p.2 la →
        Completes (.lb rd base imm') t rd (BitVec.ofInt 32 (s.byte la).toInt) ∧
        Completes (.lbu rd base imm') t rd (BitVec.ofNat 32 (s.byte la).toNat)))

/-! ### Table 1: arithmetic -/

/-- 40_arithmetic.md R103, R104. -/
def Obligations.AddAndSubAreModulo : Prop :=
  RegRegRule 0x00000033#32 .add (fun a b v =>
    v.toNat = (a.toNat + b.toNat) % 2 ^ 32 ∧ v = BitVec.ofInt 32 (a.toInt + b.toInt)) ∧
  RegRegRule 0x40000033#32 .sub (fun a b v =>
    (v.toNat : Int) = ((a.toNat : Int) - b.toNat) % 2 ^ 32 ∧ v = BitVec.ofInt 32 (a.toInt - b.toInt))

/-- 40_arithmetic.md R105, R106, R107. -/
def Obligations.AndOrXorAreBitwise : Prop :=
  RegRegRule 0x00007033#32 .and (fun a b v => ∀ k < 32, v.getLsbD k = (a.getLsbD k && b.getLsbD k)) ∧
  RegRegRule 0x00006033#32 .or (fun a b v => ∀ k < 32, v.getLsbD k = (a.getLsbD k || b.getLsbD k)) ∧
  RegRegRule 0x00004033#32 .xor (fun a b v => ∀ k < 32, v.getLsbD k = (a.getLsbD k ^^ b.getLsbD k))

/-- 40_arithmetic.md R108, R109, R110: the amount is the low five bits of `x[rs2]`. The amount is the spec's own
decision D3 (log 16). -/
def Obligations.RegisterShiftsUseTheLowFiveBits : Prop :=
  RegRegRule 0x00001033#32 .sll (fun a b v => v.toNat = a.toNat * 2 ^ (b.toNat % 32) % 2 ^ 32) ∧
  RegRegRule 0x00005033#32 .srl (fun a b v => v.toNat = a.toNat / 2 ^ (b.toNat % 32)) ∧
  RegRegRule 0x40005033#32 .sra (fun a b v => v.toInt = a.toInt / 2 ^ (b.toNat % 32))

/-- 40_arithmetic.md R111, R112. -/
def Obligations.SetLessThanComparesSignedAndUnsigned : Prop :=
  RegRegRule 0x00002033#32 .slt (fun a b v => v.toNat = if a.toInt < b.toInt then 1 else 0) ∧
  RegRegRule 0x00003033#32 .sltu (fun a b v => v.toNat = if a.toNat < b.toNat then 1 else 0)

/-- 40_arithmetic.md R113. -/
def Obligations.AddiAddsTheSignedImmediate : Prop :=
  RegImmRule 0x00000013#32 .addi (fun a imm v =>
    (v.toNat : Int) = ((a.toNat : Int) + imm) % 2 ^ 32 ∧ v = BitVec.ofInt 32 (a.toInt + imm))

/-- 40_arithmetic.md R114, R115, R116: the immediate is sign-extended first. Sign extension is the spec's own decision
D2 (log 15). -/
def Obligations.LogicalImmediatesAreSignExtended : Prop :=
  RegImmRule 0x00007013#32 .andi (fun a imm v =>
    ∀ k < 32, v.getLsbD k = (a.getLsbD k && (BitVec.ofInt 32 imm).getLsbD k)) ∧
  RegImmRule 0x00006013#32 .ori (fun a imm v =>
    ∀ k < 32, v.getLsbD k = (a.getLsbD k || (BitVec.ofInt 32 imm).getLsbD k)) ∧
  RegImmRule 0x00004013#32 .xori (fun a imm v =>
    ∀ k < 32, v.getLsbD k = (a.getLsbD k ^^ (BitVec.ofInt 32 imm).getLsbD k))

/-- 40_arithmetic.md R117, R118, R119. -/
def Obligations.ImmediateShiftsUseTheField : Prop :=
  ShiftImmRule 0x00001013#32 .slli (fun a n v => v.toNat = a.toNat * 2 ^ n % 2 ^ 32) ∧
  ShiftImmRule 0x00005013#32 .srli (fun a n v => v.toNat = a.toNat / 2 ^ n) ∧
  ShiftImmRule 0x40005013#32 .srai (fun a n v => v.toInt = a.toInt / 2 ^ n)

/-- 40_arithmetic.md R120, R121: `sltiu` sign-extends the immediate, then compares unsigned. The immediate of sltiu is
the spec's own decision D4 (log 15). -/
def Obligations.SetLessThanImmediateComparesSignedAndUnsigned : Prop :=
  RegImmRule 0x00002013#32 .slti (fun a imm v => v.toNat = if a.toInt < imm then 1 else 0) ∧
  RegImmRule 0x00003013#32 .sltiu (fun a imm v => v.toNat = if (a.toNat : Int) < imm % 2 ^ 32 then 1 else 0)

/-! ### Table 2: loads and stores -/

/-- 41_loads_stores.md R131, R132. -/
def Obligations.ByteLoadsExtendOneByte : Prop :=
  LoadRule 0x00000003#32 .lb 1 (fun m ea => BitVec.ofInt 32 (m ea).toInt) ∧
  LoadRule 0x00004003#32 .lbu 1 (fun m ea => BitVec.ofNat 32 (m ea).toNat) ∧
  ∀ (s : State) (a : Word), AlignmentAllows s a 1

/-- 41_loads_stores.md R133, R134. -/
def Obligations.HalfWordLoadsExtendTwoBytes : Prop :=
  LoadRule 0x00001003#32 .lh 2 (fun m ea => BitVec.ofInt 32 (m (ea + 1#32) ++ m ea).toInt) ∧
  LoadRule 0x00005003#32 .lhu 2 (fun m ea => BitVec.ofNat 32 (m (ea + 1#32) ++ m ea).toNat)

/-- 41_loads_stores.md R135. -/
def Obligations.WordLoadReadsFourBytes : Prop :=
  LoadRule 0x00002003#32 .lw 4 (fun m ea => m (ea + 3#32) ++ m (ea + 2#32) ++ m (ea + 1#32) ++ m ea)

/-- 41_loads_stores.md R136. -/
def Obligations.SbStoresTheLowByte : Prop := StoreRule 0x00000023#32 .sb 1

/-- 41_loads_stores.md R137. -/
def Obligations.ShStoresTheLowHalfWord : Prop := StoreRule 0x00001023#32 .sh 2

/-- 41_loads_stores.md R138. -/
def Obligations.SwStoresTheWord : Prop := StoreRule 0x00002023#32 .sw 4

/-! ### Table 3: control -/

/-- 42_control.md R153, R154. -/
def Obligations.BeqAndBneCompareAllBits : Prop :=
  BranchRule 0x00000063#32 .beq (fun a b => a = b) ∧ BranchRule 0x00001063#32 .bne (fun a b => a ≠ b)

/-- 42_control.md R155, R157. -/
def Obligations.BltAndBgeCompareSigned : Prop :=
  BranchRule 0x00004063#32 .blt (fun a b => a.toInt < b.toInt) ∧
  BranchRule 0x00005063#32 .bge (fun a b => a.toInt ≥ b.toInt)

/-- 42_control.md R156, R158. -/
def Obligations.BltuAndBgeuCompareUnsigned : Prop :=
  BranchRule 0x00006063#32 .bltu (fun a b => a.toNat < b.toNat) ∧
  BranchRule 0x00007063#32 .bgeu (fun a b => a.toNat ≥ b.toNat)

/-- 42_control.md R159. -/
def Obligations.JalLinksAndJumpsRelativeToItself : Prop :=
  DecodesAs 0x0000006F#32 0x0000007F#32 (fun w => .jal (rdOf w)
    (w.extractLsb' 31 1 ++ w.extractLsb' 12 8 ++ w.extractLsb' 20 1 ++ w.extractLsb' 21 10 ++ 0#1)) ∧
  ∀ (s : State) (rd : Reg) (offset : BitVec 21),
    JumpRule (.jal rd offset) s rd (s.pc + BitVec.ofInt 32 offset.toInt)

/-- 42_control.md R160: bit 0 of the sum is cleared; the base is the register's old value, also where `rd = rs1`. Bit
0 and the order are the spec's own decisions D6, D7 (log 18). -/
def Obligations.JalrLinksAndJumpsToTheClearedSum : Prop :=
  DecodesAs 0x00000067#32 0x0000707F#32 (fun w => .jalr (rdOf w) (rs1Of w) (w.extractLsb' 20 12)) ∧
  ∀ (s : State) (rd rs1 : Reg) (imm : BitVec 12), ∃ target : Word,
    (target.toNat : Int) = (((s.x rs1).toNat : Int) + imm.toInt) % 2 ^ 32 / 2 * 2 ∧
    JumpRule (.jalr rd rs1 imm) s rd target

/-! ### Tables 4 and 5 -/

/-- 43_other.md R170, R171. -/
def Obligations.UpperImmediatesFillTheHighTwentyBits : Prop :=
  DecodesAs 0x00000017#32 0x0000007F#32 (fun w => .auipc (rdOf w) (w.extractLsb' 12 20)) ∧
  DecodesAs 0x00000037#32 0x0000007F#32 (fun w => .lui (rdOf w) (w.extractLsb' 12 20)) ∧
  ∀ (s : State) (rd : Reg) (immu : BitVec 20),
    Completes (.auipc rd immu) s rd (BitVec.ofNat 32 (s.pc.toNat + immu.toNat * 2 ^ 12)) ∧
    Completes (.lui rd immu) s rd (BitVec.ofNat 32 (immu.toNat * 2 ^ 12))

/-- 43_other.md R172, R173: `ebreak` and `ecall` always raise, and change nothing; their whole words under
`SYSTEM_IMM_MAP = official`. Which word is which is the spec's own decision D17 (log 12). -/
def Obligations.EbreakAndEcallAlwaysRaise : Prop :=
  (∀ c : Params, c.sysImmMap = .official →
    decodeWord c 0x00100073#32 = .ok .ebreak ∧ decodeWord c 0x00000073#32 = .ok .ecall) ∧
  ∀ s : State, Raises .ebreak s ⟨.breakpoint, s.pc⟩ ∧ Raises .ecall s ⟨.environmentCall, s.pc⟩

/-- 43_other.md R175, 90_conflicts.md C1: `SYSTEM_IMM_MAP` decides which of the two words is which, and no other word
is either. Which word is which is the spec's own decision D17 (log 12), the zero fields D16 (log 25). -/
def Obligations.SystemImmMapSwapsTheTwoWords : Prop :=
  ∀ (c : Params) (w : Word),
    (decodeWord c w = .ok .ecall ↔ w = (match c.sysImmMap with | .official => 0x00000073#32 | .card => 0x00100073#32)) ∧
    (decodeWord c w = .ok .ebreak ↔ w = (match c.sysImmMap with | .official => 0x00100073#32 | .card => 0x00000073#32))

/-- 43_other.md R174, R176: `mul` when `EXT_MUL`, its word unlisted otherwise; the low 32 bits of the exact product,
the same read as signed or as unsigned. The encoding and the half kept are the spec's own decision D27 (log 13). -/
def Obligations.MulKeepsTheLowHalfOfTheProduct : Prop :=
  (∀ (c : Params) (w : Word), w &&& 0xFE00707F#32 = 0x02000033#32 →
    (c.extMul = true → decodeWord c w = .ok (.mul (rdOf w) (rs1Of w) (rs2Of w))) ∧
    (c.extMul = false → decodeWord c w = .error .mulAbsent)) ∧
  ∀ (s : State) (rd rs1 rs2 : Reg), ∃ v,
    v.toNat = (s.x rs1).toNat * (s.x rs2).toNat % 2 ^ 32 ∧ v = BitVec.ofInt 32 ((s.x rs1).toInt * (s.x rs2).toInt) ∧
    Completes (.mul rd rs1 rs2) s rd v

/-! ### Pseudoinstructions and the assembler -/

/-- 44_pseudoinstructions.md R197: the expansion of `li`, with `hi = ((v + 0x800) >> 12)[19:0]`; executing it leaves
the constant in `x[rd]`, for every 32-bit constant. The split is the spec's own decision D29 (log 27). -/
def Obligations.LiLoadsEveryConstant : Prop :=
  ∀ (s : State) (rd : Reg) (v : Word),
    let lo := v.extractLsb' 0 12
    let hi := (v + 0x00000800#32).extractLsb' 12 20
    ((-2048 ≤ v.toInt ∧ v.toInt ≤ 2047) → expand (.li rd v) = [.addi rd 0#5 lo]) ∧
    (¬(-2048 ≤ v.toInt ∧ v.toInt ≤ 2047) → lo ≠ 0#12 → expand (.li rd v) = [.lui rd hi, .addi rd rd lo]) ∧
    (¬(-2048 ≤ v.toInt ∧ v.toInt ≤ 2047) → lo = 0#12 → expand (.li rd v) = [.lui rd hi]) ∧
    ∃ t, execAll (expand (.li rd v)) s = .next t ∧ RegResult s t rd v ∧
      t.pc = s.pc + BitVec.ofNat 32 (4 * (expand (.li rd v)).length)

/-- 44_pseudoinstructions.md R196: the expansion of `la`, always both instructions, with `hi = ((delta + 0x800) >>
12)[19:0]`; executing it, its `auipc` standing at `pc`, leaves the label's address in `x[rd]`. The split is the spec's
own decision D29 (log 27). -/
def Obligations.LaLoadsTheAddressOfItsLabel : Prop :=
  ∀ (s : State) (rd : Reg) (label : Word),
    let delta := label - s.pc
    expand (.la rd s.pc label) =
      [.auipc rd ((delta + 0x00000800#32).extractLsb' 12 20), .addi rd rd (delta.extractLsb' 0 12)] ∧
    ∃ t, execAll (expand (.la rd s.pc label)) s = .next t ∧ RegResult s t rd label ∧ t.pc = s.pc + 8#32

/-- 44_pseudoinstructions.md R191 to R195, R198 to R202: the one instruction each of the ten expands to; and what executing
the expansion does, which by R190 is what that instruction does (42_control.md R153, R154, R159, R160; 40_arithmetic.md R104,
R113, R116). The cleared bit 0 of `jr` and `ret`, which the card omits, is the spec's own decision D6 (log 18); the raise at a
misaligned target is D12 (log 19). -/
def Obligations.OneInstructionPseudoinstructionsExpandAndRun : Prop :=
  ∀ (s : State) (rd rs1 : Reg) (off : BitVec 13) (off' : BitVec 21),
    let run := fun p => execAll (expand p) s
    let next := s.pc + 4#32
    let near := s.pc + BitVec.ofInt 32 off.toInt
    let far := s.pc + BitVec.ofInt 32 off'.toInt
    (expand (.beqz rs1 off) = [.beq rs1 0#5 off] ∧ BranchOutcome (run (.beqz rs1 off)) s (s.x rs1 = 0#32) near) ∧
    (expand (.bnez rs1 off) = [.bne rs1 0#5 off] ∧ BranchOutcome (run (.bnez rs1 off)) s (s.x rs1 ≠ 0#32) near) ∧
    (expand (.j off') = [.jal 0#5 off'] ∧ (far.toNat % 4 = 0 → MovedPc (run (.j off')) s far) ∧
      (far.toNat % 4 ≠ 0 → HandedOver (run (.j off')) s ⟨.instructionAddressMisaligned, far⟩)) ∧
    (expand (.jal off') = [.jal 1#5 off'] ∧ JumpOutcome (run (.jal off')) s 1#5 far) ∧
    (expand (.jr rs1) = [.jalr 0#5 rs1 0#12] ∧
      ((s.x rs1).toNat % 4 < 2 → MovedPc (run (.jr rs1)) s (s.x rs1 &&& 0xFFFFFFFE#32)) ∧
      (2 ≤ (s.x rs1).toNat % 4 →
        HandedOver (run (.jr rs1)) s ⟨.instructionAddressMisaligned, s.x rs1 &&& 0xFFFFFFFE#32⟩)) ∧
    (expand .ret = [.jalr 0#5 1#5 0#12] ∧
      ((s.x 1#5).toNat % 4 < 2 → MovedPc (run .ret) s (s.x 1#5 &&& 0xFFFFFFFE#32)) ∧
      (2 ≤ (s.x 1#5).toNat % 4 →
        HandedOver (run .ret) s ⟨.instructionAddressMisaligned, s.x 1#5 &&& 0xFFFFFFFE#32⟩)) ∧
    (expand (.mv rd rs1) = [.addi rd rs1 0#12] ∧ WroteReg (run (.mv rd rs1)) s rd (s.x rs1) next) ∧
    (expand (.neg rd rs1) = [.sub rd 0#5 rs1] ∧ WroteReg (run (.neg rd rs1)) s rd (-s.x rs1) next) ∧
    (expand (.not rd rs1) = [.xori rd rs1 (BitVec.ofInt 12 (-1))] ∧
      WroteReg (run (.not rd rs1)) s rd (~~~s.x rs1) next) ∧
    (expand .nop = [.addi 0#5 0#5 0#12] ∧ MovedPc (run .nop) s next)

/-- 30_encoding.md R93 (the spec's own derivation from R80 to R85), 42_control.md R151: a label gets an offset exactly when it
is in range and at an even distance; the offset is then well-formed and reaches the label. -/
def Obligations.AssembledOffsetsReachTheirLabel : Prop :=
  ∀ (s : State) (label : Word),
    let d := (label - s.pc).toInt
    ((-4096 ≤ d ∧ d ≤ 4094 ∧ d % 2 = 0) → ∃ off, assembleBranchOffset s.pc label = some off) ∧
    (¬(-4096 ≤ d ∧ d ≤ 4094 ∧ d % 2 = 0) → assembleBranchOffset s.pc label = none) ∧
    (∀ off, assembleBranchOffset s.pc label = some off → offsetEven off = true ∧ s.branchTarget off = label) ∧
    ((-1048576 ≤ d ∧ d ≤ 1048574 ∧ d % 2 = 0) → ∃ off, assembleJalOffset s.pc label = some off) ∧
    (¬(-1048576 ≤ d ∧ d ≤ 1048574 ∧ d % 2 = 0) → assembleJalOffset s.pc label = none) ∧
    (∀ off, assembleJalOffset s.pc label = some off → offsetEven off = true ∧ s.jalTarget off = label)

/-- 30_encoding.md R93 (the spec's own derivation from R80 to R85): an immediate gets a field exactly when it is in range, and
the field holds it. -/
def Obligations.OperandsInRangeAreAssembled : Prop :=
  (∀ v : Int, ((-2048 ≤ v ∧ v ≤ 2047) → ∃ f, assembleImm v = some f ∧ (immI f).toInt = v) ∧
    (¬(-2048 ≤ v ∧ v ≤ 2047) → assembleImm v = none)) ∧
  (∀ v : Nat, (v ≤ 31 → ∃ f, assembleShamt v = some f ∧ immShiftAmount f = v) ∧ (31 < v → assembleShamt v = none)) ∧
  (∀ v : Nat, (v ≤ 1048575 → ∃ f, assembleImmu v = some f ∧ (immU f).toNat = v * 2 ^ 12) ∧
    (1048575 < v → assembleImmu v = none))

/-! ### The program as loaded -/

/-- 20_memory.md R57 (the spec's own decision D25, log 11): from every state whose bytes outside the stored record stand as
loaded, a step that gives a next state gives such a state; and under `IFETCH_AFTER_STORE = refuse` a word fetched in such
a state is the word as loaded. -/
def Obligations.EveryStepKeepsTheProgramAsLoaded : Prop :=
  ∀ (init : Memory) (s : State), AsLoaded init s →
    (∀ t, step s = .next t → AsLoaded init t) ∧
    (∀ w, s.params.ifetchAfterStore = .refuse → s.fetch = .word w →
      w = init.read (s.pc + 3#32).toNat ++ init.read (s.pc + 2#32).toNat ++ init.read (s.pc + 1#32).toNat ++
        init.read s.pc.toNat)
end

