-- ==== Sys2Proof/Laws/Decode.lean ====
section
/-! SUPPORT. The fields of an encoded word (30_encoding.md R72 to R78, R86): what the decoder reads from each layout of the
encoder, and the bits of each layout from the fields of any word. -/

namespace Sys2Proof

theorem opcodeOf_encR (f7 : BitVec 7) (rs2 rs1 : Reg) (f3 : BitVec 3) (rd : Reg) (op : BitVec 7) :
    opcodeOf (encR f7 rs2 rs1 f3 rd op) = op := by
  apply BitVec.eq_of_getLsbD_eq
  intro i hi
  simp only [opcodeOf, encR, BitVec.getLsbD_extractLsb', BitVec.getLsbD_append, hi]
  interval_cases i <;> simp

theorem rdOf_encR (f7 : BitVec 7) (rs2 rs1 : Reg) (f3 : BitVec 3) (rd : Reg) (op : BitVec 7) :
    rdOf (encR f7 rs2 rs1 f3 rd op) = rd := by
  apply BitVec.eq_of_getLsbD_eq
  intro i hi
  simp only [rdOf, encR, BitVec.getLsbD_extractLsb', BitVec.getLsbD_append, hi]
  interval_cases i <;> simp

theorem funct3Of_encR (f7 : BitVec 7) (rs2 rs1 : Reg) (f3 : BitVec 3) (rd : Reg) (op : BitVec 7) :
    funct3Of (encR f7 rs2 rs1 f3 rd op) = f3 := by
  apply BitVec.eq_of_getLsbD_eq
  intro i hi
  simp only [funct3Of, encR, BitVec.getLsbD_extractLsb', BitVec.getLsbD_append, hi]
  interval_cases i <;> simp

theorem rs1Of_encR (f7 : BitVec 7) (rs2 rs1 : Reg) (f3 : BitVec 3) (rd : Reg) (op : BitVec 7) :
    rs1Of (encR f7 rs2 rs1 f3 rd op) = rs1 := by
  apply BitVec.eq_of_getLsbD_eq
  intro i hi
  simp only [rs1Of, encR, BitVec.getLsbD_extractLsb', BitVec.getLsbD_append, hi]
  interval_cases i <;> simp

theorem rs2Of_encR (f7 : BitVec 7) (rs2 rs1 : Reg) (f3 : BitVec 3) (rd : Reg) (op : BitVec 7) :
    rs2Of (encR f7 rs2 rs1 f3 rd op) = rs2 := by
  apply BitVec.eq_of_getLsbD_eq
  intro i hi
  simp only [rs2Of, encR, BitVec.getLsbD_extractLsb', BitVec.getLsbD_append, hi]
  interval_cases i <;> simp

theorem funct7Of_encR (f7 : BitVec 7) (rs2 rs1 : Reg) (f3 : BitVec 3) (rd : Reg) (op : BitVec 7) :
    funct7Of (encR f7 rs2 rs1 f3 rd op) = f7 := by
  apply BitVec.eq_of_getLsbD_eq
  intro i hi
  simp only [funct7Of, encR, BitVec.getLsbD_extractLsb', BitVec.getLsbD_append, hi]
  interval_cases i <;> simp

theorem opcodeOf_encI (imm : BitVec 12) (rs1 : Reg) (f3 : BitVec 3) (rd : Reg) (op : BitVec 7) :
    opcodeOf (encI imm rs1 f3 rd op) = op := by
  apply BitVec.eq_of_getLsbD_eq
  intro i hi
  simp only [opcodeOf, encI, BitVec.getLsbD_extractLsb', BitVec.getLsbD_append, hi]
  interval_cases i <;> simp

theorem rdOf_encI (imm : BitVec 12) (rs1 : Reg) (f3 : BitVec 3) (rd : Reg) (op : BitVec 7) :
    rdOf (encI imm rs1 f3 rd op) = rd := by
  apply BitVec.eq_of_getLsbD_eq
  intro i hi
  simp only [rdOf, encI, BitVec.getLsbD_extractLsb', BitVec.getLsbD_append, hi]
  interval_cases i <;> simp

theorem funct3Of_encI (imm : BitVec 12) (rs1 : Reg) (f3 : BitVec 3) (rd : Reg) (op : BitVec 7) :
    funct3Of (encI imm rs1 f3 rd op) = f3 := by
  apply BitVec.eq_of_getLsbD_eq
  intro i hi
  simp only [funct3Of, encI, BitVec.getLsbD_extractLsb', BitVec.getLsbD_append, hi]
  interval_cases i <;> simp

theorem rs1Of_encI (imm : BitVec 12) (rs1 : Reg) (f3 : BitVec 3) (rd : Reg) (op : BitVec 7) :
    rs1Of (encI imm rs1 f3 rd op) = rs1 := by
  apply BitVec.eq_of_getLsbD_eq
  intro i hi
  simp only [rs1Of, encI, BitVec.getLsbD_extractLsb', BitVec.getLsbD_append, hi]
  interval_cases i <;> simp

theorem immIOf_encI (imm : BitVec 12) (rs1 : Reg) (f3 : BitVec 3) (rd : Reg) (op : BitVec 7) :
    immIOf (encI imm rs1 f3 rd op) = imm := by
  apply BitVec.eq_of_getLsbD_eq
  intro i hi
  simp only [immIOf, encI, BitVec.getLsbD_extractLsb', BitVec.getLsbD_append, hi]
  interval_cases i <;> simp

theorem opcodeOf_encS (imm : BitVec 12) (rs2 rs1 : Reg) (f3 : BitVec 3) (op : BitVec 7) :
    opcodeOf (encS imm rs2 rs1 f3 op) = op := by
  apply BitVec.eq_of_getLsbD_eq
  intro i hi
  simp only [opcodeOf, encS, BitVec.getLsbD_extractLsb', BitVec.getLsbD_append, hi]
  interval_cases i <;> simp

theorem funct3Of_encS (imm : BitVec 12) (rs2 rs1 : Reg) (f3 : BitVec 3) (op : BitVec 7) :
    funct3Of (encS imm rs2 rs1 f3 op) = f3 := by
  apply BitVec.eq_of_getLsbD_eq
  intro i hi
  simp only [funct3Of, encS, BitVec.getLsbD_extractLsb', BitVec.getLsbD_append, hi]
  interval_cases i <;> simp

theorem rs1Of_encS (imm : BitVec 12) (rs2 rs1 : Reg) (f3 : BitVec 3) (op : BitVec 7) :
    rs1Of (encS imm rs2 rs1 f3 op) = rs1 := by
  apply BitVec.eq_of_getLsbD_eq
  intro i hi
  simp only [rs1Of, encS, BitVec.getLsbD_extractLsb', BitVec.getLsbD_append, hi]
  interval_cases i <;> simp

theorem rs2Of_encS (imm : BitVec 12) (rs2 rs1 : Reg) (f3 : BitVec 3) (op : BitVec 7) :
    rs2Of (encS imm rs2 rs1 f3 op) = rs2 := by
  apply BitVec.eq_of_getLsbD_eq
  intro i hi
  simp only [rs2Of, encS, BitVec.getLsbD_extractLsb', BitVec.getLsbD_append, hi]
  interval_cases i <;> simp

theorem immSOf_encS (imm : BitVec 12) (rs2 rs1 : Reg) (f3 : BitVec 3) (op : BitVec 7) :
    immSOf (encS imm rs2 rs1 f3 op) = imm := by
  apply BitVec.eq_of_getLsbD_eq
  intro i hi
  simp only [immSOf, encS, BitVec.getLsbD_extractLsb', BitVec.getLsbD_append]
  interval_cases i <;> simp

theorem opcodeOf_encB (off : BitVec 13) (rs2 rs1 : Reg) (f3 : BitVec 3) (op : BitVec 7) :
    opcodeOf (encB off rs2 rs1 f3 op) = op := by
  apply BitVec.eq_of_getLsbD_eq
  intro i hi
  simp only [opcodeOf, encB, BitVec.getLsbD_extractLsb', BitVec.getLsbD_append, hi]
  interval_cases i <;> simp

theorem funct3Of_encB (off : BitVec 13) (rs2 rs1 : Reg) (f3 : BitVec 3) (op : BitVec 7) :
    funct3Of (encB off rs2 rs1 f3 op) = f3 := by
  apply BitVec.eq_of_getLsbD_eq
  intro i hi
  simp only [funct3Of, encB, BitVec.getLsbD_extractLsb', BitVec.getLsbD_append, hi]
  interval_cases i <;> simp

theorem rs1Of_encB (off : BitVec 13) (rs2 rs1 : Reg) (f3 : BitVec 3) (op : BitVec 7) :
    rs1Of (encB off rs2 rs1 f3 op) = rs1 := by
  apply BitVec.eq_of_getLsbD_eq
  intro i hi
  simp only [rs1Of, encB, BitVec.getLsbD_extractLsb', BitVec.getLsbD_append, hi]
  interval_cases i <;> simp

theorem rs2Of_encB (off : BitVec 13) (rs2 rs1 : Reg) (f3 : BitVec 3) (op : BitVec 7) :
    rs2Of (encB off rs2 rs1 f3 op) = rs2 := by
  apply BitVec.eq_of_getLsbD_eq
  intro i hi
  simp only [rs2Of, encB, BitVec.getLsbD_extractLsb', BitVec.getLsbD_append, hi]
  interval_cases i <;> simp

theorem immBOf_encB (off : BitVec 13) (rs2 rs1 : Reg) (f3 : BitVec 3) (op : BitVec 7) (h : off.getLsbD 0 = false) :
    immBOf (encB off rs2 rs1 f3 op) = off := by
  apply BitVec.eq_of_getLsbD_eq
  intro i hi
  simp only [immBOf, encB, BitVec.getLsbD_extractLsb', BitVec.getLsbD_append]
  interval_cases i <;> simp
  simpa using h

theorem opcodeOf_encU (immu : BitVec 20) (rd : Reg) (op : BitVec 7) :
    opcodeOf (encU immu rd op) = op := by
  apply BitVec.eq_of_getLsbD_eq
  intro i hi
  simp only [opcodeOf, encU, BitVec.getLsbD_extractLsb', BitVec.getLsbD_append, hi]
  interval_cases i <;> simp

theorem rdOf_encU (immu : BitVec 20) (rd : Reg) (op : BitVec 7) :
    rdOf (encU immu rd op) = rd := by
  apply BitVec.eq_of_getLsbD_eq
  intro i hi
  simp only [rdOf, encU, BitVec.getLsbD_extractLsb', BitVec.getLsbD_append, hi]
  interval_cases i <;> simp

theorem immUOf_encU (immu : BitVec 20) (rd : Reg) (op : BitVec 7) :
    immUOf (encU immu rd op) = immu := by
  apply BitVec.eq_of_getLsbD_eq
  intro i hi
  simp only [immUOf, encU, BitVec.getLsbD_extractLsb', BitVec.getLsbD_append, hi]
  interval_cases i <;> simp

theorem opcodeOf_encJ (off : BitVec 21) (rd : Reg) (op : BitVec 7) :
    opcodeOf (encJ off rd op) = op := by
  apply BitVec.eq_of_getLsbD_eq
  intro i hi
  simp only [opcodeOf, encJ, BitVec.getLsbD_extractLsb', BitVec.getLsbD_append, hi]
  interval_cases i <;> simp

theorem rdOf_encJ (off : BitVec 21) (rd : Reg) (op : BitVec 7) :
    rdOf (encJ off rd op) = rd := by
  apply BitVec.eq_of_getLsbD_eq
  intro i hi
  simp only [rdOf, encJ, BitVec.getLsbD_extractLsb', BitVec.getLsbD_append, hi]
  interval_cases i <;> simp

theorem immJOf_encJ (off : BitVec 21) (rd : Reg) (op : BitVec 7) (h : off.getLsbD 0 = false) :
    immJOf (encJ off rd op) = off := by
  apply BitVec.eq_of_getLsbD_eq
  intro i hi
  simp only [immJOf, encJ, BitVec.getLsbD_extractLsb', BitVec.getLsbD_append]
  interval_cases i <;> simp
  simpa using h

/-- Any word is the R layout of its own fields. -/
theorem encR_fields (w : Word) : encR (funct7Of w) (rs2Of w) (rs1Of w) (funct3Of w) (rdOf w) (opcodeOf w) = w := by
  apply BitVec.eq_of_getLsbD_eq
  intro i hi
  simp only [encR, funct7Of, rs2Of, rs1Of, funct3Of, rdOf, opcodeOf, BitVec.getLsbD_extractLsb', BitVec.getLsbD_append]
  interval_cases i <;> simp

/-- Any word is the I layout of its own fields. -/
theorem encI_fields (w : Word) : encI (immIOf w) (rs1Of w) (funct3Of w) (rdOf w) (opcodeOf w) = w := by
  apply BitVec.eq_of_getLsbD_eq
  intro i hi
  simp only [encI, immIOf, rs1Of, funct3Of, rdOf, opcodeOf, BitVec.getLsbD_extractLsb', BitVec.getLsbD_append]
  interval_cases i <;> simp

/-- Any word is the S layout of its own fields. -/
theorem encS_fields (w : Word) : encS (immSOf w) (rs2Of w) (rs1Of w) (funct3Of w) (opcodeOf w) = w := by
  apply BitVec.eq_of_getLsbD_eq
  intro i hi
  simp only [encS, immSOf, rs2Of, rs1Of, funct3Of, opcodeOf, BitVec.getLsbD_extractLsb', BitVec.getLsbD_append]
  interval_cases i <;> simp

/-- Any word is the B layout of its own fields. -/
theorem encB_fields (w : Word) : encB (immBOf w) (rs2Of w) (rs1Of w) (funct3Of w) (opcodeOf w) = w := by
  apply BitVec.eq_of_getLsbD_eq
  intro i hi
  simp only [encB, immBOf, rs2Of, rs1Of, funct3Of, opcodeOf, BitVec.getLsbD_extractLsb', BitVec.getLsbD_append]
  interval_cases i <;> simp

/-- Any word is the U layout of its own fields. -/
theorem encU_fields (w : Word) : encU (immUOf w) (rdOf w) (opcodeOf w) = w := by
  apply BitVec.eq_of_getLsbD_eq
  intro i hi
  simp only [encU, immUOf, rdOf, opcodeOf, BitVec.getLsbD_extractLsb', BitVec.getLsbD_append]
  interval_cases i <;> simp

/-- Any word is the J layout of its own fields. -/
theorem encJ_fields (w : Word) : encJ (immJOf w) (rdOf w) (opcodeOf w) = w := by
  apply BitVec.eq_of_getLsbD_eq
  intro i hi
  simp only [encJ, immJOf, rdOf, opcodeOf, BitVec.getLsbD_extractLsb', BitVec.getLsbD_append]
  interval_cases i <;> simp

theorem immBOf_even (w : Word) : (immBOf w).getLsbD 0 = false := by
  simp only [immBOf, BitVec.getLsbD_append]
  simp

theorem immJOf_even (w : Word) : (immJOf w).getLsbD 0 = false := by
  simp only [immJOf, BitVec.getLsbD_append]
  simp

/-! ### From a row of the opcode map to the fields it fixes -/

theorem extract_of_mask {w mask pattern : Word} (h : w &&& mask = pattern) (k n : Nat)
    (hm : mask.extractLsb' k n = BitVec.allOnes n) : w.extractLsb' k n = pattern.extractLsb' k n := by
  rw [← h]
  apply BitVec.eq_of_getLsbD_eq
  intro i hi
  have := congrArg (fun b => b.getLsbD i) hm
  simp only [BitVec.getLsbD_extractLsb', BitVec.getLsbD_allOnes, hi, decide_true, Bool.true_and] at this
  simp [this]

/-- The rows of R87 whose mask is `0x0000007F` fix the opcode. -/
theorem fields_of_mask_opcode {w pattern : Word} (h : w &&& 0x0000007F#32 = pattern) :
    opcodeOf w = opcodeOf pattern :=
  extract_of_mask h 0 7 (by decide)

/-- The rows of R87 whose mask is `0x0000707F` fix the opcode and `funct3`. -/
theorem fields_of_mask_funct3 {w pattern : Word} (h : w &&& 0x0000707F#32 = pattern) :
    opcodeOf w = opcodeOf pattern ∧ funct3Of w = funct3Of pattern :=
  ⟨extract_of_mask h 0 7 (by decide), extract_of_mask h 12 3 (by decide)⟩

/-- The rows of R87 whose mask is `0xFE00707F` fix the opcode, `funct3` and `funct7`. -/
theorem fields_of_mask_funct7 {w pattern : Word} (h : w &&& 0xFE00707F#32 = pattern) :
    opcodeOf w = opcodeOf pattern ∧ funct3Of w = funct3Of pattern ∧ funct7Of w = funct7Of pattern :=
  ⟨extract_of_mask h 0 7 (by decide), extract_of_mask h 12 3 (by decide), extract_of_mask h 25 7 (by decide)⟩

/-- The bytes of a word, read back in order, are the word. -/
theorem wordOfBytes_bytesOfWord (w : Word) :
    wordOfBytes (w.extractLsb' 0 8) (w.extractLsb' 8 8) (w.extractLsb' 16 8) (w.extractLsb' 24 8) = w := by
  apply BitVec.eq_of_getLsbD_eq
  intro i hi
  simp only [wordOfBytes, BitVec.getLsbD_extractLsb', BitVec.getLsbD_append]
  interval_cases i <;> simp

end Sys2Proof
end

