-- ==== Sys2Proof/Laws/State.lean ====
section
/-! SUPPORT. One lemma per field per update of State, and the register file's read-after-write laws. -/

namespace Sys2Proof.Machine

/-! ### `setPc` and `advance` -/

@[simp] theorem setPc_pc (s : State) (t : Word) : (s.setPc t).pc = t := rfl
@[simp] theorem setPc_regs (s : State) (t : Word) : (s.setPc t).regs = s.regs := rfl
@[simp] theorem setPc_mem (s : State) (t : Word) : (s.setPc t).mem = s.mem := rfl
@[simp] theorem setPc_stored (s : State) (t : Word) : (s.setPc t).stored = s.stored := rfl
@[simp] theorem setPc_handover (s : State) (t : Word) : (s.setPc t).handover = s.handover := rfl
@[simp] theorem setPc_params (s : State) (t : Word) : (s.setPc t).params = s.params := rfl
@[simp] theorem setPc_x (s : State) (t : Word) (r : Reg) : (s.setPc t).x r = s.x r := rfl
@[simp] theorem setPc_byte (s : State) (t a : Word) : (s.setPc t).byte a = s.byte a := rfl

@[simp] theorem advance_pc (s : State) : s.advance.pc = s.pc + 4#32 := rfl
@[simp] theorem advance_regs (s : State) : s.advance.regs = s.regs := rfl
@[simp] theorem advance_mem (s : State) : s.advance.mem = s.mem := rfl
@[simp] theorem advance_stored (s : State) : s.advance.stored = s.stored := rfl
@[simp] theorem advance_handover (s : State) : s.advance.handover = s.handover := rfl
@[simp] theorem advance_params (s : State) : s.advance.params = s.params := rfl
@[simp] theorem advance_x (s : State) (r : Reg) : s.advance.x r = s.x r := rfl
@[simp] theorem advance_byte (s : State) (a : Word) : s.advance.byte a = s.byte a := rfl

/-! ### `setX` -/

@[simp] theorem setX_pc (s : State) (i : Reg) (v : Word) : (s.setX i v).pc = s.pc := by
  unfold State.setX; split <;> rfl
@[simp] theorem setX_mem (s : State) (i : Reg) (v : Word) : (s.setX i v).mem = s.mem := by
  unfold State.setX; split <;> rfl
@[simp] theorem setX_stored (s : State) (i : Reg) (v : Word) : (s.setX i v).stored = s.stored := by
  unfold State.setX; split <;> rfl
@[simp] theorem setX_handover (s : State) (i : Reg) (v : Word) : (s.setX i v).handover = s.handover := by
  unfold State.setX; split <;> rfl
@[simp] theorem setX_params (s : State) (i : Reg) (v : Word) : (s.setX i v).params = s.params := by
  unfold State.setX; split <;> rfl
@[simp] theorem setX_byte (s : State) (i : Reg) (v a : Word) : (s.setX i v).byte a = s.byte a := by
  simp [State.byte]

/-- `x0` reads as zero (10_state.md R21). -/
@[simp] theorem x_zero (s : State) : s.x 0#5 = 0#32 := rfl

/-- A write to `x0` is discarded (10_state.md R21). -/
@[simp] theorem setX_zero (s : State) (v : Word) : s.setX 0#5 v = s := rfl

theorem reg_toNat_ne_zero {i : Reg} (h : i ≠ 0#5) : i.toNat ≠ 0 := fun e =>
  h (BitVec.eq_of_toNat_eq (by simpa using e))

/-- A register reads what was last written to it. -/
theorem x_setX_self (s : State) {i : Reg} (v : Word) (h : i ≠ 0#5) : (s.setX i v).x i = v := by
  simp [State.x, State.setX, h]

/-- A write to one register leaves the others alone. -/
theorem x_setX_of_ne (s : State) {i j : Reg} (v : Word) (h : j ≠ i) : (s.setX i v).x j = s.x j := by
  by_cases hi : i = 0#5
  · subst hi; rfl
  by_cases hj : j = 0#5
  · subst hj; rfl
  have : i.toNat - 1 ≠ j.toNat - 1 := by
    have := reg_toNat_ne_zero hi
    have := reg_toNat_ne_zero hj
    have : i.toNat ≠ j.toNat := fun e => h (BitVec.eq_of_toNat_eq e.symm)
    omega
  simp [State.x, State.setX, hi, hj, this]

theorem x_setX (s : State) (i j : Reg) (v : Word) :
    (s.setX i v).x j = if j = i ∧ i ≠ 0#5 then v else s.x j := by
  by_cases h : j = i
  · subst h
    by_cases h0 : j = 0#5
    · subst h0; simp
    · simp [h0, x_setX_self]
  · simp [h, x_setX_of_ne]

/-! ### `storeBytes` -/

@[simp] theorem storeBytes_pc (s : State) (a : Word) (n : Nat) (v : BitVec (8 * n)) :
    (s.storeBytes a n v).pc = s.pc := rfl
@[simp] theorem storeBytes_regs (s : State) (a : Word) (n : Nat) (v : BitVec (8 * n)) :
    (s.storeBytes a n v).regs = s.regs := rfl
@[simp] theorem storeBytes_mem (s : State) (a : Word) (n : Nat) (v : BitVec (8 * n)) :
    (s.storeBytes a n v).mem = s.mem.writeLE a n v := rfl
@[simp] theorem storeBytes_stored (s : State) (a : Word) (n : Nat) (v : BitVec (8 * n)) :
    (s.storeBytes a n v).stored = markStored s.stored (byteAddrs a n) := rfl
@[simp] theorem storeBytes_handover (s : State) (a : Word) (n : Nat) (v : BitVec (8 * n)) :
    (s.storeBytes a n v).handover = s.handover := rfl
@[simp] theorem storeBytes_params (s : State) (a : Word) (n : Nat) (v : BitVec (8 * n)) :
    (s.storeBytes a n v).params = s.params := rfl
@[simp] theorem storeBytes_x (s : State) (a : Word) (n : Nat) (v : BitVec (8 * n)) (r : Reg) :
    (s.storeBytes a n v).x r = s.x r := rfl

/-! ### `launch` -/

@[simp] theorem launch_pc (s : State) (l : Launch) : (s.launch l).pc = l.pc := rfl
@[simp] theorem launch_regs (s : State) (l : Launch) : (s.launch l).regs = l.regs := rfl
@[simp] theorem launch_mem (s : State) (l : Launch) : (s.launch l).mem = l.mem := rfl
@[simp] theorem launch_stored (s : State) (l : Launch) : (s.launch l).stored = s.stored := rfl
@[simp] theorem launch_handover (s : State) (l : Launch) : (s.launch l).handover = none := rfl
@[simp] theorem launch_params (s : State) (l : Launch) : (s.launch l).params = s.params := rfl

end Sys2Proof.Machine
end

