-- ==== Sys2Proof/Laws/Memory.lean ====
section
/-! SUPPORT. Memory: read after write for every memory, and every operation keeps the canonical form. -/

namespace Sys2Proof.Machine

/-! ### One byte -/

theorem read_erase (m : Memory) (a b : Nat) :
    (m.erase a).read b = if b = a then unlistedByte else m.read b := by
  induction m with
  | nil => simp [Memory.erase, Memory.read]
  | cons c m ih =>
    obtain ⟨k, v⟩ := c
    unfold Memory.erase at ih ⊢
    by_cases hk : k = a
    · subst hk
      by_cases hb : b = k
      · subst hb; simpa using ih
      · simp [hb, Memory.read, Ne.symm hb, ih]
    · by_cases hb : b = k
      · subst hb; simp [hk, Memory.read]
      · simp [hk, Memory.read, Ne.symm hb, ih]

theorem erase_forall_ne (m : Memory) (a : Nat) : ∀ c ∈ m.erase a, c.1 ≠ a := by
  simp [Memory.erase]

theorem read_insertCell (m : Memory) (a : Nat) (b : Byte) (h : ∀ c ∈ m, c.1 ≠ a) (j : Nat) :
    (m.insertCell a b).read j = if j = a then b else m.read j := by
  induction m with
  | nil => by_cases hj : j = a <;> simp [Memory.insertCell, Memory.read, hj, Ne.symm]
  | cons c m ih =>
    obtain ⟨k, v⟩ := c
    have hk : k ≠ a := h _ (List.mem_cons_self ..)
    have ih := ih fun c hc => h c (List.mem_cons_of_mem _ hc)
    by_cases hlt : a < k
    · by_cases hj : j = a
      · subst hj; simp [Memory.insertCell, hlt, Memory.read]
      · simp [Memory.insertCell, hlt, Memory.read, hj, Ne.symm hj]
    · by_cases hj : j = k
      · subst hj; simp [Memory.insertCell, hlt, Memory.read, hk]
      · simp [Memory.insertCell, hlt, Memory.read, Ne.symm hj, ih]

/-- Read after write, for every memory (20_memory.md R50): the byte written at its address, every other byte as before. -/
theorem read_write (m : Memory) (a : Nat) (b : Byte) (j : Nat) :
    (m.write a b).read j = if j = a then b else m.read j := by
  unfold Memory.write
  split
  · rename_i hb
    rw [read_erase]; simp [hb]
  · rw [read_insertCell _ _ _ (erase_forall_ne m a), read_erase]
    by_cases hj : j = a <;> simp [hj]

theorem mem_insertCell {m : Memory} {a : Nat} {b : Byte} {c : Host.Cell} (h : c ∈ m.insertCell a b) :
    c = (a, b) ∨ c ∈ m := by
  induction m with
  | nil => simpa [Memory.insertCell] using h
  | cons d m ih =>
    obtain ⟨k, v⟩ := d
    by_cases hlt : a < k
    · simpa [Memory.insertCell, hlt] using h
    · simp only [Memory.insertCell, hlt, if_false, List.mem_cons] at h ⊢
      rcases h with h | h
      · exact .inr (.inl h)
      · rcases ih h with h | h
        · exact .inl h
        · exact .inr (.inr h)

theorem insertCell_sorted {m : Memory} {a : Nat} {b : Byte} (hm : m.Pairwise fun c d => c.1 < d.1)
    (ha : ∀ c ∈ m, c.1 ≠ a) : (m.insertCell a b).Pairwise fun c d => c.1 < d.1 := by
  induction m with
  | nil => simp [Memory.insertCell]
  | cons d m ih =>
    obtain ⟨k, v⟩ := d
    have hk : k ≠ a := ha _ (List.mem_cons_self ..)
    rw [List.pairwise_cons] at hm
    by_cases hlt : a < k
    · simp only [Memory.insertCell, hlt, if_true]
      rw [List.pairwise_cons, List.pairwise_cons]
      refine ⟨fun c hc => ?_, hm⟩
      rcases List.mem_cons.1 hc with h | h
      · subst h; exact hlt
      · exact lt_trans hlt (hm.1 c h)
    · simp only [Memory.insertCell, hlt, if_false]
      rw [List.pairwise_cons]
      refine ⟨fun c hc => ?_, ih hm.2 fun c hc => ha c (List.mem_cons_of_mem _ hc)⟩
      rcases mem_insertCell hc with h | h
      · subst h; show k < a; omega
      · exact hm.1 c h

theorem erase_wf {m : Memory} (h : m.wf) (a : Nat) : (m.erase a).wf :=
  ⟨h.1.filter _, fun c hc => h.2 c (List.mem_filter.1 hc).1⟩

/-- A byte write inside the space keeps the canonical form. -/
theorem write_wf {m : Memory} (h : m.wf) {a : Nat} (ha : a < 2 ^ 32) (b : Byte) : (m.write a b).wf := by
  unfold Memory.write
  split
  · exact erase_wf h a
  · rename_i hb
    refine ⟨insertCell_sorted (erase_wf h a).1 (erase_forall_ne m a), fun c hc => ?_⟩
    rcases mem_insertCell hc with e | e
    · subst e; exact ⟨ha, hb⟩
    · exact (erase_wf h a).2 c e

/-! ### `n` bytes -/

theorem add_ofNat_succ (a : Word) (i : Nat) : a + BitVec.ofNat 32 (i + 1) = a + 1#32 + BitVec.ofNat 32 i := by
  rw [BitVec.add_assoc]
  congr 1
  apply BitVec.eq_of_toNat_eq
  simp [Nat.add_comm]

/-- Byte `i` of a read is the byte at `a + i` (20_memory.md R42). -/
theorem readLE_byte (m : Memory) (a : Word) (n i : Nat) (h : i < n) :
    (m.readLE a n).extractLsb' (8 * i) 8 = m.read (a + BitVec.ofNat 32 i).toNat := by
  induction n generalizing a i with
  | zero => omega
  | succ n ih =>
    cases i with
    | zero =>
      simp only [Memory.readLE, Nat.mul_zero, BitVec.add_zero]
      apply BitVec.eq_of_getLsbD_eq
      intro j hj
      simp only [BitVec.getLsbD_extractLsb', hj, decide_true, Bool.true_and, Nat.zero_add]
      rw [BitVec.getLsbD_append]; simp [hj]
    | succ i =>
      rw [add_ofNat_succ, ← ih (a + 1#32) i (by omega)]
      apply BitVec.eq_of_getLsbD_eq
      intro j hj
      simp only [Memory.readLE, BitVec.getLsbD_extractLsb', hj, decide_true, Bool.true_and]
      rw [BitVec.getLsbD_append]
      have h1 : ¬(8 * (i + 1) + j < 8) := by omega
      have h2 : 8 * (i + 1) + j - 8 = 8 * i + j := by omega
      simp [h1, h2]

/-- A one-byte read. -/
theorem readLE_one (m : Memory) (a : Word) : m.readLE a 1 = m.read a.toNat := by
  have := readLE_byte m a 1 0 (by omega)
  simpa using this

/-- A half-word read is the byte at `a + 1` above the byte at `a`. -/
theorem readLE_two (m : Memory) (a : Word) :
    m.readLE a 2 = m.read (a + 1#32).toNat ++ m.read a.toNat := by
  change (m.readLE (a + 1#32) 1 ++ m.read a.toNat : BitVec 16) = _
  rw [readLE_one]

/-- A word read is four bytes, the highest address most significant. -/
theorem readLE_four (m : Memory) (a : Word) :
    m.readLE a 4 =
      m.read (a + 3#32).toNat ++ m.read (a + 2#32).toNat ++ m.read (a + 1#32).toNat ++ m.read a.toNat := by
  change ((m.readLE (a + 1#32 + 1#32) 2 ++ m.read (a + 1#32).toNat : BitVec 24) ++ m.read a.toNat : BitVec 32) = _
  rw [readLE_two]
  simp only [BitVec.add_assoc]
  rfl

/-- A byte address outside the access is not the access's first byte, nor inside the rest of it. -/
theorem ne_ofNat_add {n i j : Nat} (hi : i < n) (hj : j < n) (hn : n ≤ 2 ^ 32) (h : i ≠ j) (a : Word) :
    a + BitVec.ofNat 32 i ≠ a + BitVec.ofNat 32 j := by
  intro e
  have := congrArg BitVec.toNat (BitVec.add_right_inj a |>.1 e)
  simp only [BitVec.toNat_ofNat] at this
  rw [Nat.mod_eq_of_lt (by omega), Nat.mod_eq_of_lt (by omega)] at this
  exact h this

/-- A write leaves every byte outside the access as it was (20_memory.md R44). -/
theorem read_writeLE_outside (m : Memory) (a : Word) (n : Nat) (v : BitVec (8 * n)) (b : Word)
    (h : ∀ i < n, b ≠ a + BitVec.ofNat 32 i) : (m.writeLE a n v).read b.toNat = m.read b.toNat := by
  induction n generalizing m a with
  | zero => rfl
  | succ n ih =>
    rw [Memory.writeLE, ih]
    · rw [read_write, if_neg]
      intro e
      exact h 0 (by omega) (by simpa using BitVec.eq_of_toNat_eq e)
    · intro i hi e
      exact h (i + 1) (by omega) (by rw [add_ofNat_succ]; exact e)

/-- Byte `i` of a write stands at `a + i` (20_memory.md R42, R44 step 3). -/
theorem read_writeLE_inside (m : Memory) (a : Word) (n : Nat) (v : BitVec (8 * n)) (i : Nat) (hi : i < n)
    (hn : n ≤ 2 ^ 32) :
    (m.writeLE a n v).read (a + BitVec.ofNat 32 i).toNat = v.extractLsb' (8 * i) 8 := by
  induction n generalizing m a i with
  | zero => omega
  | succ n ih =>
    rw [Memory.writeLE]
    cases i with
    | zero =>
      rw [read_writeLE_outside]
      · rw [read_write]; simp
      · intro j hj e
        rw [← add_ofNat_succ] at e
        exact ne_ofNat_add (n := n + 1) (by omega) (by omega) hn (by omega) a e
    | succ i =>
      rw [add_ofNat_succ a i, ih _ _ _ i (by omega) (by omega)]
      apply BitVec.eq_of_getLsbD_eq
      intro j hj
      have : 8 * i + j < 8 * n := by omega
      have e : 8 + (8 * i + j) = 8 * (i + 1) + j := by omega
      simp [hj, this, e]

/-- A read of the bytes a write stored gives the value back. -/
theorem readLE_writeLE (m : Memory) (a : Word) (n : Nat) (v : BitVec (8 * n)) (hn : n ≤ 2 ^ 32) :
    (m.writeLE a n v).readLE a n = v := by
  apply BitVec.eq_of_getLsbD_eq
  intro k hk
  have h := readLE_byte (m.writeLE a n v) a n (k / 8) (by omega)
  rw [read_writeLE_inside m a n v (k / 8) (by omega) hn] at h
  have h := congrArg (fun b => b.getLsbD (k % 8)) h
  have e : 8 * (k / 8) + k % 8 = k := by omega
  simpa [e, Nat.mod_lt] using h

/-- A write of `n` bytes keeps the canonical form. -/
theorem writeLE_wf {m : Memory} (h : m.wf) (a : Word) (n : Nat) (v : BitVec (8 * n)) : (m.writeLE a n v).wf := by
  induction n generalizing m a with
  | zero => exact h
  | succ n ih => exact ih (write_wf h a.isLt _) _ _

/-! ### The record of stored bytes -/

theorem mem_insertAddr (l : List Nat) (a b : Nat) : b ∈ insertAddr l a ↔ b = a ∨ b ∈ l := by
  induction l with
  | nil => simp [insertAddr]
  | cons k l ih =>
    unfold insertAddr
    split
    · simp
    · split
      · rename_i h; subst h; simp
      · simp only [List.mem_cons, ih]; tauto

theorem insertAddr_wf {l : List Nat} (h : storedWf l) {a : Nat} (ha : a < 2 ^ 32) : storedWf (insertAddr l a) := by
  refine ⟨?_, fun b hb => ?_⟩
  · obtain ⟨h, -⟩ := h
    induction l with
    | nil => simp [insertAddr]
    | cons k l ih =>
      rw [List.pairwise_cons] at h
      unfold insertAddr
      split
      · rename_i hlt
        rw [List.pairwise_cons, List.pairwise_cons]
        refine ⟨fun b hb => ?_, h⟩
        rcases List.mem_cons.1 hb with e | e
        · subst e; exact hlt
        · exact lt_trans hlt (h.1 b e)
      · split
        · exact List.pairwise_cons.2 h
        · rw [List.pairwise_cons]
          refine ⟨fun b hb => ?_, ih h.2⟩
          rcases (mem_insertAddr l a b).1 hb with e | e
          · omega
          · exact h.1 b e
  · rcases (mem_insertAddr l a b).1 hb with e | e
    · omega
    · exact h.2 b e

theorem mem_markStored (l : List Nat) (as : List Word) (b : Nat) :
    b ∈ markStored l as ↔ b ∈ l ∨ ∃ a ∈ as, b = a.toNat := by
  induction as generalizing l with
  | nil => simp [markStored]
  | cons a as ih =>
    change b ∈ markStored (insertAddr l a.toNat) as ↔ _
    rw [ih, mem_insertAddr]
    simp only [List.mem_cons, exists_eq_or_imp]
    tauto

theorem markStored_wf {l : List Nat} (h : storedWf l) (as : List Word) : storedWf (markStored l as) := by
  induction as generalizing l with
  | nil => exact h
  | cons a as ih => exact ih (insertAddr_wf h a.isLt)

theorem mem_byteAddrs (a b : Word) (n : Nat) : b ∈ byteAddrs a n ↔ ∃ i < n, b = a + BitVec.ofNat 32 i := by
  simp [byteAddrs, eq_comm]

end Sys2Proof.Machine
end

