-- ==== Sys2Proof/Laws/Ops.lean ====
section
/-! SUPPORT. One lemma for each shared operation that says once everything it can do; proofs cite these and do not unfold
the operation. -/

namespace Sys2Proof.Machine

/-! ### Alignment and permissions -/

theorem wordAligned_iff (t : Word) : wordAligned t = true ↔ t.toNat % 4 = 0 := by
  unfold wordAligned
  rw [beq_iff_eq, ← BitVec.toNat_inj]
  simp [BitVec.extractLsb'_toNat]

theorem aligned_add_four {t : Word} (h : t.toNat % 4 = 0) : (t + 4#32).toNat % 4 = 0 := by
  rw [BitVec.toNat_add]
  simp only [BitVec.toNat_ofNat]
  omega

theorem permits_iff (s : State) (p : Perm) (a : Word) (n : Nat) : s.permits p a n = true ↔ Permitted s p a n := by
  simp [State.permits, byteAddrs, Permitted]

theorem trapsMisaligned_iff (s : State) (a : Word) (n : Nat) :
    s.trapsMisaligned a n = true ↔ s.params.misalignedData = .trap ∧ a.toNat % n ≠ 0 := by
  simp [State.trapsMisaligned]

theorem alignmentAllows_iff (s : State) (a : Word) (n : Nat) :
    AlignmentAllows s a n ↔ s.trapsMisaligned a n = false := by
  rw [← Bool.not_eq_true, trapsMisaligned_iff, AlignmentAllows]
  cases h : s.params.misalignedData <;> simp

/-! ### The access primitives -/

/-- Everything `MemRead` can do (20_memory.md R43; 41_loads_stores.md R139). -/
theorem memRead_cases (s : State) (a : Word) (n : Nat) :
    (s.trapsMisaligned a n = true ∧ s.memRead a n = .error ⟨.loadAddressMisaligned, a⟩) ∨
    (s.trapsMisaligned a n = false ∧ ¬Permitted s .r a n ∧ s.memRead a n = .error ⟨.loadAccessFault, a⟩) ∨
    (s.trapsMisaligned a n = false ∧ Permitted s .r a n ∧ s.memRead a n = .ok (s.mem.readLE a n)) := by
  unfold State.memRead
  by_cases h : s.trapsMisaligned a n = true
  · exact .inl ⟨h, by simp [h]⟩
  · by_cases hp : s.permits .r a n = true
    · exact .inr (.inr ⟨by simpa using h, (permits_iff ..).1 hp, by simp [h, hp]⟩)
    · exact .inr (.inl ⟨by simpa using h, fun e => hp ((permits_iff ..).2 e), by simp [h, hp]⟩)

/-- Everything `MemWrite` can do (20_memory.md R44; 41_loads_stores.md R139). -/
theorem memWrite_cases (s : State) (a : Word) (n : Nat) (v : BitVec (8 * n)) :
    (s.trapsMisaligned a n = true ∧ s.memWrite a n v = .error ⟨.storeAddressMisaligned, a⟩) ∨
    (s.trapsMisaligned a n = false ∧ ¬Permitted s .w a n ∧ s.memWrite a n v = .error ⟨.storeAccessFault, a⟩) ∨
    (s.trapsMisaligned a n = false ∧ Permitted s .w a n ∧ s.memWrite a n v = .ok (s.storeBytes a n v)) := by
  unfold State.memWrite
  by_cases h : s.trapsMisaligned a n = true
  · exact .inl ⟨h, by simp [h]⟩
  · by_cases hp : s.permits .w a n = true
    · exact .inr (.inr ⟨by simpa using h, (permits_iff ..).1 hp, by simp [h, hp]⟩)
    · exact .inr (.inl ⟨by simpa using h, fun e => hp ((permits_iff ..).2 e), by simp [h, hp]⟩)

/-! ### Taking an exception -/

/-- A raise is the hand-over of the whole state, nothing changed (60_exceptions.md R226, R227). -/
theorem raise_handsOver (h : Handover) (s : State) : ∃ t, raise h s = .next t ∧ HandsOver s t h :=
  ⟨_, rfl, rfl, rfl, fun _ => rfl, fun _ => rfl, rfl, rfl⟩

theorem raise_inv {h : Handover} {s t : State} (hi : s.Inv) (e : raise h s = .next t) : t.Inv := by
  cases e; exact ⟨hi.mem, hi.pc, hi.stored⟩

/-! ### The shapes meanings share -/

theorem regResult_setX (s : State) (rd : Reg) (v : Word) : RegResult s (s.setX rd v).advance rd v where
  result h := by simp [x_setX_self, h]
  zero := x_zero _
  others r h := by simp [x_setX_of_ne _ _ h]
  bytes a := by simp
  rest := ⟨by simp, by simp, by simp⟩

/-- What `writeBack` does. -/
theorem writeBack_spec (rd : Reg) (v : Word) (s : State) :
    ∃ t, writeBack rd v s = .next t ∧ RegResult s t rd v ∧ t.pc = s.pc + 4#32 :=
  ⟨_, rfl, regResult_setX s rd v, by simp⟩

/-- Everything a load can do (41_loads_stores.md R139). -/
theorem loadInto_cases (n : Nat) (ext : BitVec (8 * n) → Word) (rd : Reg) (ea : Word) (s : State) :
    (s.trapsMisaligned ea n = true ∧ loadInto n ext rd ea s = raise ⟨.loadAddressMisaligned, ea⟩ s) ∨
    (s.trapsMisaligned ea n = false ∧ ¬Permitted s .r ea n ∧
      loadInto n ext rd ea s = raise ⟨.loadAccessFault, ea⟩ s) ∨
    (s.trapsMisaligned ea n = false ∧ Permitted s .r ea n ∧
      loadInto n ext rd ea s = writeBack rd (ext (s.mem.readLE ea n)) s) := by
  unfold loadInto
  rcases memRead_cases s ea n with ⟨h, e⟩ | ⟨h, hp, e⟩ | ⟨h, hp, e⟩
  · exact .inl ⟨h, by rw [e]⟩
  · exact .inr (.inl ⟨h, hp, by rw [e]⟩)
  · exact .inr (.inr ⟨h, hp, by rw [e]⟩)

/-- Everything a store can do (41_loads_stores.md R139). -/
theorem storeFrom_cases (n : Nat) (v : BitVec (8 * n)) (ea : Word) (s : State) :
    (s.trapsMisaligned ea n = true ∧ storeFrom n v ea s = raise ⟨.storeAddressMisaligned, ea⟩ s) ∨
    (s.trapsMisaligned ea n = false ∧ ¬Permitted s .w ea n ∧
      storeFrom n v ea s = raise ⟨.storeAccessFault, ea⟩ s) ∨
    (s.trapsMisaligned ea n = false ∧ Permitted s .w ea n ∧
      storeFrom n v ea s = .next (s.storeBytes ea n v).advance) := by
  unfold storeFrom
  rcases memWrite_cases s ea n v with ⟨h, e⟩ | ⟨h, hp, e⟩ | ⟨h, hp, e⟩
  · exact .inl ⟨h, by rw [e]⟩
  · exact .inr (.inl ⟨h, hp, by rw [e]⟩)
  · exact .inr (.inr ⟨h, hp, by rw [e]⟩)

/-- Everything a conditional branch can do (42_control.md R150, R152). -/
theorem branchTo_cases (taken : Bool) (t : Word) (s : State) :
    (taken = true ∧ t.toNat % 4 = 0 ∧ branchTo taken t s = .next (s.setPc t)) ∨
    (taken = true ∧ t.toNat % 4 ≠ 0 ∧ branchTo taken t s = raise ⟨.instructionAddressMisaligned, t⟩ s) ∨
    (taken = false ∧ branchTo taken t s = .next s.advance) := by
  unfold branchTo
  cases taken
  · exact .inr (.inr ⟨rfl, rfl⟩)
  · by_cases h : wordAligned t = true
    · exact .inl ⟨rfl, (wordAligned_iff t).1 h, by simp [h]⟩
    · exact .inr (.inl ⟨rfl, fun e => h ((wordAligned_iff t).2 e), by simp [h]⟩)

/-- Everything a jump can do (42_control.md R150, R152). -/
theorem jumpLink_cases (rd : Reg) (t : Word) (s : State) :
    (t.toNat % 4 = 0 ∧ jumpLink rd t s = .next ((s.setX rd (s.pc + 4#32)).setPc t)) ∨
    (t.toNat % 4 ≠ 0 ∧ jumpLink rd t s = raise ⟨.instructionAddressMisaligned, t⟩ s) := by
  unfold jumpLink
  by_cases h : wordAligned t = true
  · exact .inl ⟨(wordAligned_iff t).1 h, by simp [h]⟩
  · exact .inr ⟨fun e => h ((wordAligned_iff t).2 e), by simp [h]⟩

/-- A store's next state: every byte of memory (20_memory.md R44). -/
theorem storeBytes_byte_outside (s : State) (ea : Word) (n : Nat) (v : BitVec (8 * n)) (b : Word)
    (h : ¬InAccess ea n b) : (s.storeBytes ea n v).byte b = s.byte b :=
  read_writeLE_outside _ _ _ _ _ fun i hi e => h ⟨i, hi, e⟩

theorem storeBytes_byte_inside (s : State) (ea : Word) (n : Nat) (v : BitVec (8 * n)) (i : Nat) (hi : i < n)
    (hn : n ≤ 2 ^ 32) : (s.storeBytes ea n v).byte (ea + BitVec.ofNat 32 i) = v.extractLsb' (8 * i) 8 :=
  read_writeLE_inside _ _ _ _ _ hi hn

theorem storeBytes_inv {s : State} (h : s.Inv) (ea : Word) (n : Nat) (v : BitVec (8 * n)) :
    (s.storeBytes ea n v).Inv :=
  ⟨writeLE_wf h.mem _ _ _, h.pc, markStored_wf h.stored _⟩

theorem setPc_inv {s : State} (h : s.Inv) {t : Word} (ht : t.toNat % 4 = 0) : (s.setPc t).Inv :=
  ⟨h.mem, ht, h.stored⟩

theorem advance_inv {s : State} (h : s.Inv) : s.advance.Inv := setPc_inv h (aligned_add_four h.pc)

theorem setX_inv {s : State} (h : s.Inv) (rd : Reg) (v : Word) : (s.setX rd v).Inv :=
  ⟨by simpa using h.mem, by simpa using h.pc, by simpa using h.stored⟩

/-! ### Everything an instruction can do -/

/-- The ways an instruction ends (00_scope.md R16): the hand-over; a register result with the sequential advance; a store;
a branch or jump that moves `pc` to an aligned target; a branch that falls through. -/
inductive Effect (i : Instr) (s : State) : State → Prop where
  | raises (h : Handover) : Effect i s { s with handover := some h }
  | writes (rd : Reg) (v : Word) (hrd : i.rd? = some rd) (hc : i.isControl = false) (hs : i.isStore = false) :
      Effect i s (s.setX rd v).advance
  | stores (ea : Word) (n : Nat) (v : BitVec (8 * n)) (hs : i.isStore = true) (hc : i.isControl = false) :
      Effect i s (s.storeBytes ea n v).advance
  | branches (t : Word) (ht : t.toNat % 4 = 0) (hc : i.isControl = true) (hs : i.isStore = false) :
      Effect i s (s.setPc t)
  | jumps (rd : Reg) (t : Word) (ht : t.toNat % 4 = 0) (hrd : i.rd? = some rd) (hc : i.isControl = true)
      (hs : i.isStore = false) : Effect i s ((s.setX rd (s.pc + 4#32)).setPc t)
  | falls (hc : i.isControl = true) (hs : i.isStore = false) : Effect i s s.advance

theorem loadInto_effect (i : Instr) (n : Nat) (ext : BitVec (8 * n) → Word) (rd : Reg) (ea : Word) (s : State)
    (hrd : i.rd? = some rd) (hc : i.isControl = false) (hs : i.isStore = false) :
    ∃ t, loadInto n ext rd ea s = .next t ∧ Effect i s t := by
  rcases loadInto_cases n ext rd ea s with ⟨_, e⟩ | ⟨_, _, e⟩ | ⟨_, _, e⟩
  · exact ⟨_, e, .raises _⟩
  · exact ⟨_, e, .raises _⟩
  · exact ⟨_, e, .writes rd _ hrd hc hs⟩

theorem storeFrom_effect (i : Instr) (n : Nat) (v : BitVec (8 * n)) (ea : Word) (s : State)
    (hs : i.isStore = true) (hc : i.isControl = false) :
    ∃ t, storeFrom n v ea s = .next t ∧ Effect i s t := by
  rcases storeFrom_cases n v ea s with ⟨_, e⟩ | ⟨_, _, e⟩ | ⟨_, _, e⟩
  · exact ⟨_, e, .raises _⟩
  · exact ⟨_, e, .raises _⟩
  · exact ⟨_, e, .stores ea n v hs hc⟩

theorem branchTo_effect (i : Instr) (taken : Bool) (a : Word) (s : State) (hc : i.isControl = true)
    (hs : i.isStore = false) : ∃ t, branchTo taken a s = .next t ∧ Effect i s t := by
  rcases branchTo_cases taken a s with ⟨_, ha, e⟩ | ⟨_, _, e⟩ | ⟨_, e⟩
  · exact ⟨_, e, .branches a ha hc hs⟩
  · exact ⟨_, e, .raises _⟩
  · exact ⟨_, e, .falls hc hs⟩

theorem jumpLink_effect (i : Instr) (rd : Reg) (a : Word) (s : State) (hrd : i.rd? = some rd)
    (hc : i.isControl = true) (hs : i.isStore = false) :
    ∃ t, jumpLink rd a s = .next t ∧ Effect i s t := by
  rcases jumpLink_cases rd a s with ⟨ha, e⟩ | ⟨_, e⟩
  · exact ⟨_, e, .jumps rd a ha hrd hc hs⟩
  · exact ⟨_, e, .raises _⟩

/-- Everything `exec` can do: an effect of one of six shapes, and always a next state. -/
theorem exec_effect (i : Instr) (s : State) : ∃ t, exec i s = .next t ∧ Effect i s t := by
  cases i with
  | lb rd rs1 imm => exact loadInto_effect _ _ _ _ _ s rfl rfl rfl
  | lbu rd rs1 imm => exact loadInto_effect _ _ _ _ _ s rfl rfl rfl
  | lh rd rs1 imm => exact loadInto_effect _ _ _ _ _ s rfl rfl rfl
  | lhu rd rs1 imm => exact loadInto_effect _ _ _ _ _ s rfl rfl rfl
  | lw rd rs1 imm => exact loadInto_effect _ _ _ _ _ s rfl rfl rfl
  | sb rs2 rs1 imm => exact storeFrom_effect _ _ _ _ s rfl rfl
  | sh rs2 rs1 imm => exact storeFrom_effect _ _ _ _ s rfl rfl
  | sw rs2 rs1 imm => exact storeFrom_effect _ _ _ _ s rfl rfl
  | beq rs1 rs2 offset => exact branchTo_effect _ _ _ s rfl rfl
  | bne rs1 rs2 offset => exact branchTo_effect _ _ _ s rfl rfl
  | blt rs1 rs2 offset => exact branchTo_effect _ _ _ s rfl rfl
  | bltu rs1 rs2 offset => exact branchTo_effect _ _ _ s rfl rfl
  | bge rs1 rs2 offset => exact branchTo_effect _ _ _ s rfl rfl
  | bgeu rs1 rs2 offset => exact branchTo_effect _ _ _ s rfl rfl
  | jal rd offset => exact jumpLink_effect _ _ _ s rfl rfl rfl
  | jalr rd rs1 imm => exact jumpLink_effect _ _ _ s rfl rfl rfl
  | ebreak => exact ⟨_, rfl, .raises _⟩
  | ecall => exact ⟨_, rfl, .raises _⟩
  | add rd rs1 rs2 => exact ⟨_, rfl, .writes rd _ rfl rfl rfl⟩
  | sub rd rs1 rs2 => exact ⟨_, rfl, .writes rd _ rfl rfl rfl⟩
  | and rd rs1 rs2 => exact ⟨_, rfl, .writes rd _ rfl rfl rfl⟩
  | or rd rs1 rs2 => exact ⟨_, rfl, .writes rd _ rfl rfl rfl⟩
  | xor rd rs1 rs2 => exact ⟨_, rfl, .writes rd _ rfl rfl rfl⟩
  | sll rd rs1 rs2 => exact ⟨_, rfl, .writes rd _ rfl rfl rfl⟩
  | srl rd rs1 rs2 => exact ⟨_, rfl, .writes rd _ rfl rfl rfl⟩
  | sra rd rs1 rs2 => exact ⟨_, rfl, .writes rd _ rfl rfl rfl⟩
  | slt rd rs1 rs2 => exact ⟨_, rfl, .writes rd _ rfl rfl rfl⟩
  | sltu rd rs1 rs2 => exact ⟨_, rfl, .writes rd _ rfl rfl rfl⟩
  | addi rd rs1 imm => exact ⟨_, rfl, .writes rd _ rfl rfl rfl⟩
  | andi rd rs1 imm => exact ⟨_, rfl, .writes rd _ rfl rfl rfl⟩
  | ori rd rs1 imm => exact ⟨_, rfl, .writes rd _ rfl rfl rfl⟩
  | xori rd rs1 imm => exact ⟨_, rfl, .writes rd _ rfl rfl rfl⟩
  | slli rd rs1 shamt => exact ⟨_, rfl, .writes rd _ rfl rfl rfl⟩
  | srli rd rs1 shamt => exact ⟨_, rfl, .writes rd _ rfl rfl rfl⟩
  | srai rd rs1 shamt => exact ⟨_, rfl, .writes rd _ rfl rfl rfl⟩
  | slti rd rs1 imm => exact ⟨_, rfl, .writes rd _ rfl rfl rfl⟩
  | sltiu rd rs1 imm => exact ⟨_, rfl, .writes rd _ rfl rfl rfl⟩
  | auipc rd immu => exact ⟨_, rfl, .writes rd _ rfl rfl rfl⟩
  | lui rd immu => exact ⟨_, rfl, .writes rd _ rfl rfl rfl⟩
  | mul rd rs1 rs2 => exact ⟨_, rfl, .writes rd _ rfl rfl rfl⟩

/-- The inversion lemma: a next state of an instruction is one of its six effects. -/
theorem effect_of_exec {i : Instr} {s t : State} (h : exec i s = .next t) : Effect i s t := by
  obtain ⟨u, hu, e⟩ := exec_effect i s
  rw [h] at hu
  cases hu
  exact e

/-! ### Everything a step can do -/

/-- Everything `step` can do (00_scope.md R16): nothing after a hand-over, a raise by the fetch or by an unlisted word, a
refusal, or the decoded instruction. -/
theorem step_cases (s : State) :
    (∃ h, s.handover = some h ∧ step s = .fault (.runEnded h)) ∨
    (s.handover = none ∧ ∃ h, s.fetch = .raises h ∧ step s = raise h s) ∨
    (s.handover = none ∧ ∃ r, s.fetch = .refuses r ∧ step s = .refused r) ∨
    (s.handover = none ∧ ∃ w e, s.fetch = .word w ∧ decodeWord s.params w = .error e ∧ step s = unlisted w s) ∨
    (s.handover = none ∧ ∃ w i, s.fetch = .word w ∧ decodeWord s.params w = .ok i ∧ step s = exec i s) := by
  unfold step
  cases hh : s.handover with
  | some h => exact .inl ⟨h, rfl, rfl⟩
  | none =>
    cases hf : s.fetch with
    | raises h => exact .inr (.inl ⟨rfl, h, rfl, rfl⟩)
    | refuses r => exact .inr (.inr (.inl ⟨rfl, r, rfl, rfl⟩))
    | word w =>
      cases hd : decodeWord s.params w with
      | error e => exact .inr (.inr (.inr (.inl ⟨rfl, w, e, rfl, hd, by simp [runWord, hd]⟩)))
      | ok i => exact .inr (.inr (.inr (.inr ⟨rfl, w, i, rfl, hd, by simp [runWord, hd]⟩)))

/-- What an unlisted word does (60_exceptions.md R223). -/
theorem unlisted_cases (w : Word) (s : State) :
    (s.params.unlistedPolicy = .refuse ∧ unlisted w s = .refused (.unlistedWord w)) ∨
    (s.params.unlistedPolicy = .illegalTrap ∧ unlisted w s = raise ⟨.illegalInstruction, w⟩ s) := by
  unfold unlisted
  cases h : s.params.unlistedPolicy
  · exact .inl ⟨rfl, rfl⟩
  · exact .inr ⟨rfl, rfl⟩

/-- Everything `Fetch(pc)` can do (20_memory.md R47). -/
theorem fetch_cases (s : State) :
    (s.pc.toNat % 4 ≠ 0 ∧ s.fetch = .raises ⟨.instructionAddressMisaligned, s.pc⟩) ∨
    (s.pc.toNat % 4 = 0 ∧ ¬Permitted s .x s.pc 4 ∧ s.fetch = .raises ⟨.instructionAccessFault, s.pc⟩) ∨
    (s.pc.toNat % 4 = 0 ∧ Permitted s .x s.pc 4 ∧ s.params.ifetchAfterStore = .refuse ∧ s.fetchesStored = true ∧
      s.fetch = .refuses (.fetchAfterStore s.pc)) ∨
    (s.pc.toNat % 4 = 0 ∧ Permitted s .x s.pc 4 ∧
      (s.params.ifetchAfterStore = .coherent ∨ s.fetchesStored = false) ∧ s.fetch = .word (s.mem.readLE s.pc 4)) := by
  unfold State.fetch
  by_cases ha : wordAligned s.pc = true
  · have ha' := (wordAligned_iff _).1 ha
    by_cases hp : s.permits .x s.pc 4 = true
    · have hp' := (permits_iff ..).1 hp
      cases hi : s.params.ifetchAfterStore with
      | coherent => exact .inr (.inr (.inr ⟨ha', hp', .inl rfl, by simp [ha, hp]⟩))
      | refuse =>
        cases hs : s.fetchesStored with
        | true => exact .inr (.inr (.inl ⟨ha', hp', rfl, rfl, by simp [ha, hp]⟩))
        | false => exact .inr (.inr (.inr ⟨ha', hp', .inr rfl, by simp [ha, hp]⟩))
    · exact .inr (.inl ⟨ha', fun e => hp ((permits_iff ..).2 e), by simp [ha, hp]⟩)
  · exact .inl ⟨fun e => ha ((wordAligned_iff _).2 e), by simp [ha]⟩

theorem fetchesStored_iff (s : State) :
    s.fetchesStored = true ↔ ∃ i < 4, (s.pc + BitVec.ofNat 32 i).toNat ∈ s.stored := by
  simp [State.fetchesStored, byteAddrs]

end Sys2Proof.Machine
end

