-- ==== Sys2Proof/Laws/PerInstr.lean ====
section
/-! SUPPORT. What holds of every instruction as syntax, one lemma per constructor. -/

namespace Sys2Proof.Laws

/-- 30_encoding.md R91: the encoding of every instruction ends in the bits `11`. -/
def LowBits.Statement (i : Instr) : Prop := ∀ c : Params, (encode c i).extractLsb' 0 2 = 0b11#2

theorem low_of_opcode (w : Word) : w.extractLsb' 0 2 = (opcodeOf w).extractLsb' 0 2 := by
  apply BitVec.eq_of_getLsbD_eq
  intro i hi
  simp [opcodeOf]

theorem LowBits.add (rd rs1 rs2 : Reg) : LowBits.Statement (.add rd rs1 rs2) := by
  intro c; rw [low_of_opcode, encode, opcodeOf_encR]; decide
theorem LowBits.sub (rd rs1 rs2 : Reg) : LowBits.Statement (.sub rd rs1 rs2) := by
  intro c; rw [low_of_opcode, encode, opcodeOf_encR]; decide
theorem LowBits.and (rd rs1 rs2 : Reg) : LowBits.Statement (.and rd rs1 rs2) := by
  intro c; rw [low_of_opcode, encode, opcodeOf_encR]; decide
theorem LowBits.or (rd rs1 rs2 : Reg) : LowBits.Statement (.or rd rs1 rs2) := by
  intro c; rw [low_of_opcode, encode, opcodeOf_encR]; decide
theorem LowBits.xor (rd rs1 rs2 : Reg) : LowBits.Statement (.xor rd rs1 rs2) := by
  intro c; rw [low_of_opcode, encode, opcodeOf_encR]; decide
theorem LowBits.sll (rd rs1 rs2 : Reg) : LowBits.Statement (.sll rd rs1 rs2) := by
  intro c; rw [low_of_opcode, encode, opcodeOf_encR]; decide
theorem LowBits.srl (rd rs1 rs2 : Reg) : LowBits.Statement (.srl rd rs1 rs2) := by
  intro c; rw [low_of_opcode, encode, opcodeOf_encR]; decide
theorem LowBits.sra (rd rs1 rs2 : Reg) : LowBits.Statement (.sra rd rs1 rs2) := by
  intro c; rw [low_of_opcode, encode, opcodeOf_encR]; decide
theorem LowBits.slt (rd rs1 rs2 : Reg) : LowBits.Statement (.slt rd rs1 rs2) := by
  intro c; rw [low_of_opcode, encode, opcodeOf_encR]; decide
theorem LowBits.sltu (rd rs1 rs2 : Reg) : LowBits.Statement (.sltu rd rs1 rs2) := by
  intro c; rw [low_of_opcode, encode, opcodeOf_encR]; decide
theorem LowBits.addi (rd rs1 : Reg) (imm : BitVec 12) : LowBits.Statement (.addi rd rs1 imm) := by
  intro c; rw [low_of_opcode, encode, opcodeOf_encI]; decide
theorem LowBits.andi (rd rs1 : Reg) (imm : BitVec 12) : LowBits.Statement (.andi rd rs1 imm) := by
  intro c; rw [low_of_opcode, encode, opcodeOf_encI]; decide
theorem LowBits.ori (rd rs1 : Reg) (imm : BitVec 12) : LowBits.Statement (.ori rd rs1 imm) := by
  intro c; rw [low_of_opcode, encode, opcodeOf_encI]; decide
theorem LowBits.xori (rd rs1 : Reg) (imm : BitVec 12) : LowBits.Statement (.xori rd rs1 imm) := by
  intro c; rw [low_of_opcode, encode, opcodeOf_encI]; decide
theorem LowBits.slli (rd rs1 : Reg) (shamt : BitVec 5) : LowBits.Statement (.slli rd rs1 shamt) := by
  intro c; rw [low_of_opcode, encode, opcodeOf_encR]; decide
theorem LowBits.srli (rd rs1 : Reg) (shamt : BitVec 5) : LowBits.Statement (.srli rd rs1 shamt) := by
  intro c; rw [low_of_opcode, encode, opcodeOf_encR]; decide
theorem LowBits.srai (rd rs1 : Reg) (shamt : BitVec 5) : LowBits.Statement (.srai rd rs1 shamt) := by
  intro c; rw [low_of_opcode, encode, opcodeOf_encR]; decide
theorem LowBits.slti (rd rs1 : Reg) (imm : BitVec 12) : LowBits.Statement (.slti rd rs1 imm) := by
  intro c; rw [low_of_opcode, encode, opcodeOf_encI]; decide
theorem LowBits.sltiu (rd rs1 : Reg) (imm : BitVec 12) : LowBits.Statement (.sltiu rd rs1 imm) := by
  intro c; rw [low_of_opcode, encode, opcodeOf_encI]; decide
theorem LowBits.lb (rd rs1 : Reg) (imm : BitVec 12) : LowBits.Statement (.lb rd rs1 imm) := by
  intro c; rw [low_of_opcode, encode, opcodeOf_encI]; decide
theorem LowBits.lbu (rd rs1 : Reg) (imm : BitVec 12) : LowBits.Statement (.lbu rd rs1 imm) := by
  intro c; rw [low_of_opcode, encode, opcodeOf_encI]; decide
theorem LowBits.lh (rd rs1 : Reg) (imm : BitVec 12) : LowBits.Statement (.lh rd rs1 imm) := by
  intro c; rw [low_of_opcode, encode, opcodeOf_encI]; decide
theorem LowBits.lhu (rd rs1 : Reg) (imm : BitVec 12) : LowBits.Statement (.lhu rd rs1 imm) := by
  intro c; rw [low_of_opcode, encode, opcodeOf_encI]; decide
theorem LowBits.lw (rd rs1 : Reg) (imm : BitVec 12) : LowBits.Statement (.lw rd rs1 imm) := by
  intro c; rw [low_of_opcode, encode, opcodeOf_encI]; decide
theorem LowBits.sb (rs2 rs1 : Reg) (imm : BitVec 12) : LowBits.Statement (.sb rs2 rs1 imm) := by
  intro c; rw [low_of_opcode, encode, opcodeOf_encS]; decide
theorem LowBits.sh (rs2 rs1 : Reg) (imm : BitVec 12) : LowBits.Statement (.sh rs2 rs1 imm) := by
  intro c; rw [low_of_opcode, encode, opcodeOf_encS]; decide
theorem LowBits.sw (rs2 rs1 : Reg) (imm : BitVec 12) : LowBits.Statement (.sw rs2 rs1 imm) := by
  intro c; rw [low_of_opcode, encode, opcodeOf_encS]; decide
theorem LowBits.beq (rs1 rs2 : Reg) (offset : BitVec 13) : LowBits.Statement (.beq rs1 rs2 offset) := by
  intro c; rw [low_of_opcode, encode, opcodeOf_encB]; decide
theorem LowBits.bne (rs1 rs2 : Reg) (offset : BitVec 13) : LowBits.Statement (.bne rs1 rs2 offset) := by
  intro c; rw [low_of_opcode, encode, opcodeOf_encB]; decide
theorem LowBits.blt (rs1 rs2 : Reg) (offset : BitVec 13) : LowBits.Statement (.blt rs1 rs2 offset) := by
  intro c; rw [low_of_opcode, encode, opcodeOf_encB]; decide
theorem LowBits.bltu (rs1 rs2 : Reg) (offset : BitVec 13) : LowBits.Statement (.bltu rs1 rs2 offset) := by
  intro c; rw [low_of_opcode, encode, opcodeOf_encB]; decide
theorem LowBits.bge (rs1 rs2 : Reg) (offset : BitVec 13) : LowBits.Statement (.bge rs1 rs2 offset) := by
  intro c; rw [low_of_opcode, encode, opcodeOf_encB]; decide
theorem LowBits.bgeu (rs1 rs2 : Reg) (offset : BitVec 13) : LowBits.Statement (.bgeu rs1 rs2 offset) := by
  intro c; rw [low_of_opcode, encode, opcodeOf_encB]; decide
theorem LowBits.jal (rd : Reg) (offset : BitVec 21) : LowBits.Statement (.jal rd offset) := by
  intro c; rw [low_of_opcode, encode, opcodeOf_encJ]; decide
theorem LowBits.jalr (rd rs1 : Reg) (imm : BitVec 12) : LowBits.Statement (.jalr rd rs1 imm) := by
  intro c; rw [low_of_opcode, encode, opcodeOf_encI]; decide
theorem LowBits.auipc (rd : Reg) (immu : BitVec 20) : LowBits.Statement (.auipc rd immu) := by
  intro c; rw [low_of_opcode, encode, opcodeOf_encU]; decide
theorem LowBits.lui (rd : Reg) (immu : BitVec 20) : LowBits.Statement (.lui rd immu) := by
  intro c; rw [low_of_opcode, encode, opcodeOf_encU]; decide
theorem LowBits.ebreak : LowBits.Statement (.ebreak) := by
  intro c; cases h : c.sysImmMap <;> simp [encode, ebreakWord, h]
theorem LowBits.ecall : LowBits.Statement (.ecall) := by
  intro c; cases h : c.sysImmMap <;> simp [encode, ecallWord, h]
theorem LowBits.mul (rd rs1 rs2 : Reg) : LowBits.Statement (.mul rd rs1 rs2) := by
  intro c; rw [low_of_opcode, encode, opcodeOf_encR]; decide

end Sys2Proof.Laws
end

