-- ==== Sys2Proof/Machine/Abi.lean ====
section
/-! DEFINITION. The card's Table 7 (10_state.md R23): assembler names and the calling convention. Software's only; no
rule of any instruction reads it. -/

namespace Sys2Proof.Machine

/-- Who preserves a register across a call. -/
inductive Saver where
  | caller
  | callee
  deriving DecidableEq, Repr

/-- One row of the expanded Table 7: `cardSaver` is the column as the card's text has it, `saver` with the blanks filled
(UNVERIFIED, log 28). -/
structure AbiRow where
  reg : Reg
  names : List String
  role : String
  cardSaver : Option Saver
  saver : Option Saver
  deriving DecidableEq, Repr

/-- `x0` to `x9`. -/
def abiLow : List AbiRow :=
  [⟨0#5, ["zero"], "Constant 0", none, none⟩,
   ⟨1#5, ["ra"], "Return Address", some .caller, some .caller⟩,
   ⟨2#5, ["sp"], "Stack Pointer", none, some .callee⟩,
   ⟨3#5, ["gp"], "Global Pointer", none, none⟩,
   ⟨4#5, ["tp"], "Thread Pointer", none, none⟩,
   ⟨5#5, ["t0"], "Temporary Registers", some .caller, some .caller⟩,
   ⟨6#5, ["t1"], "Temporary Registers", some .caller, some .caller⟩,
   ⟨7#5, ["t2"], "Temporary Registers", some .caller, some .caller⟩,
   ⟨8#5, ["s0", "fp"], "Saved Register 0 / Frame Pointer", none, some .callee⟩,
   ⟨9#5, ["s1"], "Saved Register", none, some .callee⟩]

/-- `x10` to `x17`. -/
def abiArgs : List AbiRow :=
  [⟨10#5, ["a0"], "Function Arguments / Return Values", some .caller, some .caller⟩,
   ⟨11#5, ["a1"], "Function Arguments / Return Values", some .caller, some .caller⟩,
   ⟨12#5, ["a2"], "Function Arguments", some .caller, some .caller⟩,
   ⟨13#5, ["a3"], "Function Arguments", some .caller, some .caller⟩,
   ⟨14#5, ["a4"], "Function Arguments", some .caller, some .caller⟩,
   ⟨15#5, ["a5"], "Function Arguments", some .caller, some .caller⟩,
   ⟨16#5, ["a6"], "Function Arguments", some .caller, some .caller⟩,
   ⟨17#5, ["a7"], "Function Arguments", some .caller, some .caller⟩]

/-- `x18` to `x31`. -/
def abiHigh : List AbiRow :=
  [⟨18#5, ["s2"], "Saved Registers", some .callee, some .callee⟩,
   ⟨19#5, ["s3"], "Saved Registers", some .callee, some .callee⟩,
   ⟨20#5, ["s4"], "Saved Registers", some .callee, some .callee⟩,
   ⟨21#5, ["s5"], "Saved Registers", some .callee, some .callee⟩,
   ⟨22#5, ["s6"], "Saved Registers", some .callee, some .callee⟩,
   ⟨23#5, ["s7"], "Saved Registers", some .callee, some .callee⟩,
   ⟨24#5, ["s8"], "Saved Registers", some .callee, some .callee⟩,
   ⟨25#5, ["s9"], "Saved Registers", some .callee, some .callee⟩,
   ⟨26#5, ["s10"], "Saved Registers", some .callee, some .callee⟩,
   ⟨27#5, ["s11"], "Saved Registers", some .callee, some .callee⟩,
   ⟨28#5, ["t3"], "Temporaries", some .caller, some .caller⟩,
   ⟨29#5, ["t4"], "Temporaries", some .caller, some .caller⟩,
   ⟨30#5, ["t5"], "Temporaries", some .caller, some .caller⟩,
   ⟨31#5, ["t6"], "Temporaries", some .caller, some .caller⟩]

/-- Table 7, one row per register (R23). -/
def abiTable : List AbiRow := abiLow ++ abiArgs ++ abiHigh

/-- The register an assembler name stands for (R23). -/
def regOfName (name : String) : Option Reg :=
  (abiTable.find? fun row => row.names.contains name).map (·.reg)

end Sys2Proof.Machine
end

