-- ==== Sys2Proof/Tests/Slice0.lean ====
section
/-! SUPPORT. The model's own tests. Expected results are the spec's: words and vectors of 95_test_vectors.md (named V-… as
there), the map of 30_encoding.md R87. Then one witness per obligation that has hypotheses. -/

namespace Sys2Proof.Tests

open Sys2Proof Sys2Proof.Machine

/-! ### Helpers -/

/-- The reset state with `pc`, some registers and some bytes of memory set. -/
def st (pc : Word) (rs : List (Reg × Word)) (cells : Memory) : State :=
  rs.foldl (fun s p => s.setX p.1 p.2) { State.reset with pc := pc, mem := cells }

/-- One step on the word `w` from `s`. -/
def run (w : Nat) (s : State) : Host.Outcome State Fault Refusal := step (s.withFetchWord 32 w)

/-- The register `r` and `pc` after an outcome that completed. -/
def reg (r : Reg) : Host.Outcome State Fault Refusal → Option (Word × Word)
  | .next t => if t.handover = none then some (t.x r, t.pc) else none
  | .fault _ => none
  | .refused _ => none

/-- Bytes of memory, and `pc`, after an outcome that completed. -/
def bytes (as : List Word) : Host.Outcome State Fault Refusal → Option (List Byte × Word)
  | .next t => if t.handover = none then some (as.map t.byte, t.pc) else none
  | .fault _ => none
  | .refused _ => none

/-- The raise that ended the run, with the register `r` and `pc` it left. -/
def raised (r : Reg) : Host.Outcome State Fault Refusal → Option (Handover × Word × Word)
  | .next t => t.handover.map fun h => (h, t.x r, t.pc)
  | .fault _ => none
  | .refused _ => none

/-- The bytes BB AA 99 88 at 0x2000 of the load vectors. -/
def loadCells : Memory := [(0x2000, 0xBB#8), (0x2001, 0xAA#8), (0x2002, 0x99#8), (0x2003, 0x88#8)]

/-- The bytes FF FF FF FF at 0x2000 of the store vectors. -/
def storeCells : Memory := [(0x2000, 0xFF#8), (0x2001, 0xFF#8), (0x2002, 0xFF#8), (0x2003, 0xFF#8)]

/-- The addresses of those bytes. -/
def four : List Word := [0x2000#32, 0x2001#32, 0x2002#32, 0x2003#32]

/-! ### Well-formedness: each check refuses an ill-formed term -/

theorem test_wf_branch_offset_odd : (Instr.beq 1#5 2#5 7#13).wellFormed defaultParams = false := by decide
theorem test_wf_branch_offset_odd_each :
    ((Instr.bne 1#5 2#5 1#13).wellFormed defaultParams || (Instr.blt 1#5 2#5 1#13).wellFormed defaultParams ||
      (Instr.bltu 1#5 2#5 1#13).wellFormed defaultParams || (Instr.bge 1#5 2#5 1#13).wellFormed defaultParams ||
      (Instr.bgeu 1#5 2#5 1#13).wellFormed defaultParams) = false := by decide
theorem test_wf_jal_offset_odd : (Instr.jal 1#5 3#21).wellFormed defaultParams = false := by decide
theorem test_wf_mul_absent :
    (Instr.mul 1#5 2#5 3#5).wellFormed { defaultParams with extMul := false } = false := by decide
theorem test_wf_accepts :
    ((Instr.beq 1#5 2#5 0x1FFE#13).wellFormed defaultParams && (Instr.jal 1#5 0x1FFFFE#21).wellFormed defaultParams &&
      (Instr.mul 1#5 2#5 3#5).wellFormed defaultParams) = true := by decide

/-! ### Operand ranges: what cannot be assembled (30_encoding.md R93) -/

theorem test_range_imm : assembleImm 2047 = some 0x7FF#12 ∧ assembleImm (-2048) = some 0x800#12 ∧
    assembleImm 2048 = none ∧ assembleImm (-2049) = none := by decide
theorem test_range_shamt : assembleShamt 31 = some 31#5 ∧ assembleShamt 32 = none := by decide
theorem test_range_immu : assembleImmu 1048575 = some 0xFFFFF#20 ∧ assembleImmu 1048576 = none := by decide
theorem test_range_branch : assembleBranchOffset 0x1000#32 0x1FFE#32 = some 4094#13 ∧
    assembleBranchOffset 0x1000#32 0x2000#32 = none ∧ assembleBranchOffset 0x1000#32 0x0#32 = some 0x1000#13 ∧
    assembleBranchOffset 0x1000#32 0x1001#32 = none := by decide

/-! ### Decoding: every constructor, by words written out bit by bit from the layouts -/

theorem test_decode_add : decodeTableWord 32 0b0000000_11101_11110_000_11111_0110011 = some (.add 31#5 30#5 29#5) := by decide
theorem test_decode_sub : decodeTableWord 32 0b0100000_00011_00010_000_00001_0110011 = some (.sub 1#5 2#5 3#5) := by decide
theorem test_decode_and : decodeTableWord 32 0b0000000_00010_00001_111_00011_0110011 = some (.and 3#5 1#5 2#5) := by decide
theorem test_decode_or : decodeTableWord 32 0b0000000_00010_00001_110_00011_0110011 = some (.or 3#5 1#5 2#5) := by decide
theorem test_decode_xor : decodeTableWord 32 0b0000000_00010_00001_100_00011_0110011 = some (.xor 3#5 1#5 2#5) := by decide
theorem test_decode_sll : decodeTableWord 32 0b0000000_00010_00001_001_00011_0110011 = some (.sll 3#5 1#5 2#5) := by decide
theorem test_decode_srl : decodeTableWord 32 0b0000000_00010_00001_101_00011_0110011 = some (.srl 3#5 1#5 2#5) := by decide
theorem test_decode_sra : decodeTableWord 32 0b0100000_00010_00001_101_00011_0110011 = some (.sra 3#5 1#5 2#5) := by decide
theorem test_decode_slt : decodeTableWord 32 0b0000000_00010_00001_010_00011_0110011 = some (.slt 3#5 1#5 2#5) := by decide
theorem test_decode_sltu : decodeTableWord 32 0b0000000_00010_00000_011_00011_0110011 = some (.sltu 3#5 0#5 2#5) := by decide
theorem test_decode_addi : decodeTableWord 32 0b111111111111_00110_000_00101_0010011 = some (.addi 5#5 6#5 0xFFF#12) := by decide
theorem test_decode_andi : decodeTableWord 32 0b111100000000_00110_111_00101_0010011 = some (.andi 5#5 6#5 0xF00#12) := by decide
theorem test_decode_ori : decodeTableWord 32 0b100000000000_00110_110_00101_0010011 = some (.ori 5#5 6#5 0x800#12) := by decide
theorem test_decode_xori : decodeTableWord 32 0b011111111111_00110_100_00101_0010011 = some (.xori 5#5 6#5 0x7FF#12) := by decide
theorem test_decode_slli : decodeTableWord 32 0b0000000_11111_00110_001_00101_0010011 = some (.slli 5#5 6#5 31#5) := by decide
theorem test_decode_srli : decodeTableWord 32 0b0000000_00100_00110_101_00101_0010011 = some (.srli 5#5 6#5 4#5) := by decide
theorem test_decode_srai : decodeTableWord 32 0b0100000_11111_00110_101_00101_0010011 = some (.srai 5#5 6#5 31#5) := by decide
theorem test_decode_slti : decodeTableWord 32 0b011111111111_00110_010_00101_0010011 = some (.slti 5#5 6#5 0x7FF#12) := by decide
theorem test_decode_sltiu : decodeTableWord 32 0b100000000000_00110_011_00101_0010011 = some (.sltiu 5#5 6#5 0x800#12) := by decide
theorem test_decode_lb : decodeTableWord 32 0b111111111111_00110_000_00101_0000011 = some (.lb 5#5 6#5 0xFFF#12) := by decide
theorem test_decode_lbu : decodeTableWord 32 0b000000000010_00110_100_00101_0000011 = some (.lbu 5#5 6#5 2#12) := by decide
theorem test_decode_lh : decodeTableWord 32 0b000000000010_00110_001_00101_0000011 = some (.lh 5#5 6#5 2#12) := by decide
theorem test_decode_lhu : decodeTableWord 32 0b000000000011_00110_101_00101_0000011 = some (.lhu 5#5 6#5 3#12) := by decide
theorem test_decode_lw : decodeTableWord 32 0b111111111100_00110_010_00101_0000011 = some (.lw 5#5 6#5 0xFFC#12) := by decide
theorem test_decode_sb : decodeTableWord 32 0b0000001_00111_00110_000_00000_0100011 = some (.sb 7#5 6#5 32#12) := by decide
theorem test_decode_sh : decodeTableWord 32 0b0000000_00111_00110_001_00010_0100011 = some (.sh 7#5 6#5 2#12) := by decide
theorem test_decode_sw : decodeTableWord 32 0b1111111_00111_00110_010_11100_0100011 = some (.sw 7#5 6#5 0xFFC#12) := by decide
theorem test_decode_beq : decodeTableWord 32 0b0_000000_00000_00000_000_0000_1_1100011 = some (.beq 0#5 0#5 2048#13) := by decide
theorem test_decode_bne : decodeTableWord 32 0b1_111111_00000_00101_001_1100_1_1100011 = some (.bne 5#5 0#5 0x1FF8#13) := by decide
theorem test_decode_blt : decodeTableWord 32 0b0_000000_00010_00001_100_0100_0_1100011 = some (.blt 1#5 2#5 8#13) := by decide
theorem test_decode_bltu : decodeTableWord 32 0b0_000000_00010_00001_110_0100_0_1100011 = some (.bltu 1#5 2#5 8#13) := by decide
theorem test_decode_bge : decodeTableWord 32 0b0_000000_00010_00001_101_0100_0_1100011 = some (.bge 1#5 2#5 8#13) := by decide
theorem test_decode_bgeu : decodeTableWord 32 0b0_000000_00010_00001_111_0100_0_1100011 = some (.bgeu 1#5 2#5 8#13) := by decide
theorem test_decode_jal : decodeTableWord 32 0b0_0000000000_1_00000000_00001_1101111 = some (.jal 1#5 2048#21) := by decide
theorem test_decode_jalr : decodeTableWord 32 0b111111111100_00101_000_00001_1100111 = some (.jalr 1#5 5#5 0xFFC#12) := by decide
theorem test_decode_auipc : decodeTableWord 32 0b11111111111111111111_00101_0010111 = some (.auipc 5#5 0xFFFFF#20) := by decide
theorem test_decode_lui : decodeTableWord 32 0b00010010001101000101_00101_0110111 = some (.lui 5#5 0x12345#20) := by decide
theorem test_decode_ebreak : decodeTableWord 32 0b000000000001_00000_000_00000_1110011 = some (.ebreak) := by decide
theorem test_decode_ecall : decodeTableWord 32 0b000000000000_00000_000_00000_1110011 = some (.ecall) := by decide
theorem test_decode_mul : decodeTableWord 32 0b0000001_00010_00001_000_00011_0110011 = some (.mul 3#5 1#5 2#5) := by decide

/-- V-ENC-B5, B6, B7, J5 to J8, S4, S5: one piece of a scattered immediate each. -/
theorem test_decode_scattered_bits :
    decodeTableWord 32 0x000000E3 = some (.beq 0#5 0#5 2048#13) ∧ decodeTableWord 32 0x00000163 = some (.beq 0#5 0#5 2#13) ∧
    decodeTableWord 32 0x02000063 = some (.beq 0#5 0#5 32#13) ∧ decodeTableWord 32 0x000010EF = some (.jal 1#5 4096#21) ∧
    decodeTableWord 32 0x002000EF = some (.jal 1#5 2#21) ∧ decodeTableWord 32 0x000800EF = some (.jal 1#5 524288#21) ∧
    decodeTableWord 32 0x00730FA3 = some (.sb 7#5 6#5 31#12) := by decide

/-- V-UNL-1 to V-UNL-25: no word of the list decodes. -/
theorem test_decode_unlisted :
    [0x00000000, 0xFFFFFFFF, 0x0FF0000F, 0x0000100F, 0x30529073, 0x30200073, 0x10500073, 0x000000F3, 0x00008073,
     0x00200073, 0x40031293, 0x02035293, 0x4020F1B3, 0x022091B3, 0x0220C1B3, 0x00033283, 0x00036283, 0x00037283,
     0x00733023, 0x0020A063, 0x0020B063, 0x00009067, 0x00000001, 0x100522AF, 0x00052007].map (decodeTableWord 32) =
      List.replicate 25 none := by decide
/-- V-UNL-26. -/
theorem test_decode_mul_absent :
    decodeWord { defaultParams with extMul := false } 0x022081B3#32 = .error .mulAbsent := by decide
/-- R70: fewer than four bytes are no instruction. -/
theorem test_decode_truncated : decodeBytes defaultParams [0x13#8, 0x00#8, 0x00#8] = .error .truncated := by decide

/-- No two rows of R87 both match a word: a bit that both masks fix differs. -/
theorem test_rows_disjoint (m : SystemImmMap) :
    (opcodeRows { defaultParams with sysImmMap := m }).Pairwise
      (fun a b => (a.pattern ^^^ b.pattern) &&& a.mask &&& b.mask ≠ 0#32) := by
  cases m <;> decide

/-- Each row's pattern decodes to the row's own instruction, and there are the 40 rows of R87. -/
theorem test_rows_decode (m : SystemImmMap) :
    (opcodeRows { defaultParams with sysImmMap := m }).length = 40 ∧
    ∀ row ∈ opcodeRows { defaultParams with sysImmMap := m },
      (decodeWord { defaultParams with sysImmMap := m } row.pattern).toOption.map Instr.mnemonic = some row.mnemonic := by
  cases m <;> decide

/-! ### One step of each instruction -/

/-- V-ADD-2. -/
theorem test_add_wraps : reg 3#5 (run 0x002081B3 (st 0x00001000#32 [(1#5, 0xFFFFFFFF#32), (2#5, 0x00000001#32)] [])) =
    some (0x00000000#32, 0x00001004#32) := by decide
/-- V-ADD-5. -/
theorem test_add_rd_is_both_sources : reg 1#5 (run 0x001080B3 (st 0x00001000#32 [(1#5, 0x80000001#32)] [])) =
    some (0x00000002#32, 0x00001004#32) := by decide
/-- V-SUB-1. -/
theorem test_sub_borrows : reg 3#5 (run 0x402081B3 (st 0x00001000#32 [(1#5, 0x00000005#32), (2#5, 0x00000007#32)] [])) =
    some (0xFFFFFFFE#32, 0x00001004#32) := by decide
/-- V-SUB-3. -/
theorem test_sub_negates_most_negative : reg 5#5 (run 0x406002B3 (st 0x00001000#32 [(6#5, 0x80000000#32)] [])) =
    some (0x80000000#32, 0x00001004#32) := by decide
/-- V-AND-1. -/
theorem test_and : reg 3#5 (run 0x0020F1B3 (st 0x00001000#32 [(1#5, 0xF0F0F0F0#32), (2#5, 0x0FF00FF0#32)] [])) =
    some (0x00F000F0#32, 0x00001004#32) := by decide
/-- V-OR-1. -/
theorem test_or : reg 3#5 (run 0x0020E1B3 (st 0x00001000#32 [(1#5, 0xF0F0F0F0#32), (2#5, 0x0FF00FF0#32)] [])) =
    some (0xFFF0FFF0#32, 0x00001004#32) := by decide
/-- V-XOR-1. -/
theorem test_xor : reg 3#5 (run 0x0020C1B3 (st 0x00001000#32 [(1#5, 0xF0F0F0F0#32), (2#5, 0x0FF00FF0#32)] [])) =
    some (0xFF00FF00#32, 0x00001004#32) := by decide
/-- V-SLL-3. -/
theorem test_sll_amount_32 : reg 3#5 (run 0x002091B3 (st 0x00001000#32 [(1#5, 0x12345678#32), (2#5, 0x00000020#32), (3#5, 0xAAAAAAAA#32)] [])) =
    some (0x12345678#32, 0x00001004#32) := by decide
/-- V-SLL-4. -/
theorem test_sll_low_five_bits : reg 3#5 (run 0x002091B3 (st 0x00001000#32 [(1#5, 0x12345678#32), (2#5, 0xFFFFFFE4#32)] [])) =
    some (0x23456780#32, 0x00001004#32) := by decide
/-- V-SRL-2. -/
theorem test_srl_zeros_enter : reg 3#5 (run 0x0020D1B3 (st 0x00001000#32 [(1#5, 0xF0000000#32), (2#5, 0x00000004#32)] [])) =
    some (0x0F000000#32, 0x00001004#32) := by decide
/-- V-SRL-3. -/
theorem test_srl_amount_36 : reg 3#5 (run 0x0020D1B3 (st 0x00001000#32 [(1#5, 0xF0000000#32), (2#5, 0x00000024#32)] [])) =
    some (0x0F000000#32, 0x00001004#32) := by decide
/-- V-SRA-1. -/
theorem test_sra_sign_enters : reg 3#5 (run 0x4020D1B3 (st 0x00001000#32 [(1#5, 0xF0000000#32), (2#5, 0x00000004#32)] [])) =
    some (0xFF000000#32, 0x00001004#32) := by decide
/-- V-SRA-3. -/
theorem test_sra_positive : reg 3#5 (run 0x4020D1B3 (st 0x00001000#32 [(1#5, 0x7FFFFFFF#32), (2#5, 0x0000001F#32)] [])) =
    some (0x00000000#32, 0x00001004#32) := by decide
/-- V-SLT-1. -/
theorem test_slt_signed : reg 3#5 (run 0x0020A1B3 (st 0x00001000#32 [(1#5, 0xFFFFFFFF#32), (2#5, 0x00000001#32)] [])) =
    some (0x00000001#32, 0x00001004#32) := by decide
/-- V-SLT-4. -/
theorem test_slt_equal : reg 3#5 (run 0x0020A1B3 (st 0x00001000#32 [(1#5, 0x00000007#32), (2#5, 0x00000007#32), (3#5, 0x00000009#32)] [])) =
    some (0x00000000#32, 0x00001004#32) := by decide
/-- V-SLTU-1. -/
theorem test_sltu_unsigned : reg 3#5 (run 0x0020B1B3 (st 0x00001000#32 [(1#5, 0xFFFFFFFF#32), (2#5, 0x00000001#32), (3#5, 0x00000009#32)] [])) =
    some (0x00000000#32, 0x00001004#32) := by decide
/-- V-SLTU-2. -/
theorem test_sltu_true : reg 3#5 (run 0x0020B1B3 (st 0x00001000#32 [(1#5, 0x00000001#32), (2#5, 0xFFFFFFFF#32)] [])) =
    some (0x00000001#32, 0x00001004#32) := by decide
/-- V-ADDI-1. -/
theorem test_addi_negative : reg 5#5 (run 0xFFF30293 (st 0x00001000#32 [(6#5, 0x00000000#32)] [])) =
    some (0xFFFFFFFF#32, 0x00001004#32) := by decide
/-- V-ADDI-2. -/
theorem test_addi_wraps_past_signed_max : reg 5#5 (run 0x7FF30293 (st 0x00001000#32 [(6#5, 0x7FFFF801#32)] [])) =
    some (0x80000000#32, 0x00001004#32) := by decide
/-- V-ANDI-2. -/
theorem test_andi_sign_extended : reg 5#5 (run 0xF0037293 (st 0x00001000#32 [(6#5, 0x12345678#32)] [])) =
    some (0x12345600#32, 0x00001004#32) := by decide
/-- V-ORI-2. -/
theorem test_ori_sign_extended : reg 5#5 (run 0x80036293 (st 0x00001000#32 [(6#5, 0x00000123#32)] [])) =
    some (0xFFFFF923#32, 0x00001004#32) := by decide
/-- V-XORI-1. -/
theorem test_xori_complements : reg 5#5 (run 0xFFF34293 (st 0x00001000#32 [(6#5, 0x12345678#32)] [])) =
    some (0xEDCBA987#32, 0x00001004#32) := by decide
/-- V-SLLI-2. -/
theorem test_slli_31 : reg 5#5 (run 0x01F31293 (st 0x00001000#32 [(6#5, 0x00000003#32)] [])) =
    some (0x80000000#32, 0x00001004#32) := by decide
/-- V-SLLI-1. -/
theorem test_slli_0 : reg 5#5 (run 0x00031293 (st 0x00001000#32 [(6#5, 0x12345678#32)] [])) =
    some (0x12345678#32, 0x00001004#32) := by decide
/-- V-SRLI-2. -/
theorem test_srli : reg 5#5 (run 0x00435293 (st 0x00001000#32 [(6#5, 0xF2345678#32)] [])) =
    some (0x0F234567#32, 0x00001004#32) := by decide
/-- V-SRAI-1. -/
theorem test_srai : reg 5#5 (run 0x40435293 (st 0x00001000#32 [(6#5, 0xF2345678#32)] [])) =
    some (0xFF234567#32, 0x00001004#32) := by decide
/-- V-SLTI-1. -/
theorem test_slti_signed : reg 5#5 (run 0xFFF32293 (st 0x00001000#32 [(6#5, 0xFFFFFFFE#32)] [])) =
    some (0x00000001#32, 0x00001004#32) := by decide
/-- V-SLTI-2. -/
theorem test_slti_false : reg 5#5 (run 0xFFF32293 (st 0x00001000#32 [(5#5, 0x00000009#32), (6#5, 0x00000000#32)] [])) =
    some (0x00000000#32, 0x00001004#32) := by decide
/-- V-SLTIU-5. -/
theorem test_sltiu_sign_extends_then_unsigned : reg 5#5 (run 0x80033293 (st 0x00001000#32 [(6#5, 0xFFFFF7FF#32)] [])) =
    some (0x00000001#32, 0x00001004#32) := by decide
/-- V-SLTIU-2. -/
theorem test_sltiu_equal : reg 5#5 (run 0xFFF33293 (st 0x00001000#32 [(5#5, 0x00000009#32), (6#5, 0xFFFFFFFF#32)] [])) =
    some (0x00000000#32, 0x00001004#32) := by decide
/-- V-LB-2. -/
theorem test_lb_sign_extends : reg 5#5 (run 0x00330283 (st 0x00001000#32 [(6#5, 0x00002000#32)] loadCells)) =
    some (0xFFFFFF88#32, 0x00001004#32) := by decide
/-- V-LB-3. -/
theorem test_lb_negative_displacement : reg 5#5 (run 0xFFF30283 (st 0x00001000#32 [(6#5, 0x00002002#32)] loadCells)) =
    some (0xFFFFFFAA#32, 0x00001004#32) := by decide
/-- V-LBU-1. -/
theorem test_lbu_zero_extends : reg 5#5 (run 0x00034283 (st 0x00001000#32 [(6#5, 0x00002000#32)] loadCells)) =
    some (0x000000BB#32, 0x00001004#32) := by decide
/-- V-LH-2. -/
theorem test_lh_sign_extends : reg 5#5 (run 0x00231283 (st 0x00001000#32 [(6#5, 0x00002000#32)] loadCells)) =
    some (0xFFFF8899#32, 0x00001004#32) := by decide
/-- V-LH-3. -/
theorem test_lh_misaligned : raised 5#5 (run 0x00131283 (st 0x00001000#32 [(5#5, 0x00000007#32), (6#5, 0x00002000#32)] loadCells)) =
    some (⟨.loadAddressMisaligned, 0x00002001#32⟩, 0x00000007#32, 0x00001000#32) := by decide
/-- V-LHU-1. -/
theorem test_lhu_zero_extends : reg 5#5 (run 0x00035283 (st 0x00001000#32 [(6#5, 0x00002000#32)] loadCells)) =
    some (0x0000AABB#32, 0x00001004#32) := by decide
/-- V-LHU-3. -/
theorem test_lhu_misaligned : raised 5#5 (run 0x00335283 (st 0x00001000#32 [(5#5, 0x00000007#32), (6#5, 0x00002000#32)] loadCells)) =
    some (⟨.loadAddressMisaligned, 0x00002003#32⟩, 0x00000007#32, 0x00001000#32) := by decide
/-- V-LW-4. -/
theorem test_lw_rd_is_base : reg 6#5 (run 0x00032303 (st 0x00001000#32 [(6#5, 0x00002000#32)] loadCells)) =
    some (0x8899AABB#32, 0x00001004#32) := by decide
/-- V-LW-8. -/
theorem test_lw_address_wraps : reg 5#5 (run 0x00432283 (st 0x00001000#32 [(6#5, 0xFFFFFFFC#32)] [(0, 0x78#8), (1, 0x56#8), (2, 0x34#8), (3, 0x12#8)])) =
    some (0x12345678#32, 0x00001004#32) := by decide
/-- V-SB-2. -/
theorem test_sb_low_byte : bytes four (run 0x007301A3 (st 0x1000#32 [(6#5, 0x00002000#32), (7#5, 0x12345678#32)] storeCells)) =
    some ([0xFF#8, 0xFF#8, 0xFF#8, 0x78#8], 0x1004#32) := by decide
/-- V-SB-3. -/
theorem test_sb_address_wraps : bytes [0xFFFFFFFF#32] (run 0xFE730FA3 (st 0x1000#32 [(6#5, 0x00000000#32), (7#5, 0x000000AB#32)] [])) =
    some ([0xAB#8], 0x1004#32) := by decide
/-- V-SH-2. -/
theorem test_sh_low_half : bytes four (run 0x00731123 (st 0x1000#32 [(6#5, 0x00002000#32), (7#5, 0x12345678#32)] storeCells)) =
    some ([0xFF#8, 0xFF#8, 0x78#8, 0x56#8], 0x1004#32) := by decide
/-- V-SH-3. -/
theorem test_sh_misaligned : raised 7#5 (run 0x007310A3 (st 0x00001000#32 [(6#5, 0x00002000#32), (7#5, 0x12345678#32)] storeCells)) =
    some (⟨.storeAddressMisaligned, 0x00002001#32⟩, 0x12345678#32, 0x00001000#32) := by decide
/-- V-SW-1. -/
theorem test_sw_little_endian : bytes four (run 0x00732023 (st 0x1000#32 [(6#5, 0x00002000#32), (7#5, 0x12345678#32)] storeCells)) =
    some ([0x78#8, 0x56#8, 0x34#8, 0x12#8], 0x1004#32) := by decide
/-- V-SW-6. -/
theorem test_sw_data_is_address : bytes four (run 0x00632023 (st 0x1000#32 [(6#5, 0x00002000#32)] storeCells)) =
    some ([0x00#8, 0x20#8, 0x00#8, 0x00#8], 0x1004#32) := by decide
/-- V-BEQ-1. -/
theorem test_beq_taken : reg 1#5 (run 0x00208663 (st 0x00001000#32 [(1#5, 0x00000005#32), (2#5, 0x00000005#32)] [])) =
    some (0x00000005#32, 0x0000100C#32) := by decide
/-- V-B-MIS1. -/
theorem test_beq_misaligned_target : raised 1#5 (run 0x00208363 (st 0x00001000#32 [(1#5, 0x00000005#32), (2#5, 0x00000005#32)] [])) =
    some (⟨.instructionAddressMisaligned, 0x00001006#32⟩, 0x00000005#32, 0x00001000#32) := by decide
/-- V-BNE-1. -/
theorem test_bne_backward : reg 1#5 (run 0xFE209EE3 (st 0x00001000#32 [(1#5, 0x00000005#32), (2#5, 0x00000006#32)] [])) =
    some (0x00000005#32, 0x00000FFC#32) := by decide
/-- V-B-WRAP. -/
theorem test_bne_wraps : reg 1#5 (run 0xFE0098E3 (st 0x00000008#32 [(1#5, 0x00000001#32)] [])) =
    some (0x00000001#32, 0xFFFFFFF8#32) := by decide
/-- V-BLT-1. -/
theorem test_blt_signed : reg 1#5 (run 0x0020C463 (st 0x00001000#32 [(1#5, 0xFFFFFFFF#32), (2#5, 0x00000001#32)] [])) =
    some (0xFFFFFFFF#32, 0x00001008#32) := by decide
/-- V-BLT-3. -/
theorem test_blt_equal : reg 1#5 (run 0x0020C463 (st 0x00001000#32 [(1#5, 0x00000005#32), (2#5, 0x00000005#32)] [])) =
    some (0x00000005#32, 0x00001004#32) := by decide
/-- V-BLTU-1. -/
theorem test_bltu_unsigned : reg 1#5 (run 0x0020E463 (st 0x00001000#32 [(1#5, 0xFFFFFFFF#32), (2#5, 0x00000001#32)] [])) =
    some (0xFFFFFFFF#32, 0x00001004#32) := by decide
/-- V-BLTU-2. -/
theorem test_bltu_taken : reg 1#5 (run 0x0020E463 (st 0x00001000#32 [(1#5, 0x00000001#32), (2#5, 0xFFFFFFFF#32)] [])) =
    some (0x00000001#32, 0x00001008#32) := by decide
/-- V-BGE-1. -/
theorem test_bge_equal : reg 1#5 (run 0x0020D463 (st 0x00001000#32 [(1#5, 0x00000005#32), (2#5, 0x00000005#32)] [])) =
    some (0x00000005#32, 0x00001008#32) := by decide
/-- V-BGE-2. -/
theorem test_bge_signed : reg 1#5 (run 0x0020D463 (st 0x00001000#32 [(1#5, 0x80000000#32), (2#5, 0x7FFFFFFF#32)] [])) =
    some (0x80000000#32, 0x00001004#32) := by decide
/-- V-BGEU-1. -/
theorem test_bgeu_unsigned : reg 1#5 (run 0x0020F463 (st 0x00001000#32 [(1#5, 0x80000000#32), (2#5, 0x7FFFFFFF#32)] [])) =
    some (0x80000000#32, 0x00001008#32) := by decide
/-- V-BGEU-2. -/
theorem test_bgeu_false : reg 1#5 (run 0x0020F463 (st 0x00001000#32 [(1#5, 0x00000000#32), (2#5, 0x00000001#32)] [])) =
    some (0x00000000#32, 0x00001004#32) := by decide
/-- V-JAL-3. -/
theorem test_jal_links : reg 1#5 (run 0x800000EF (st 0x00200000#32 [] [])) =
    some (0x00200004#32, 0x00100000#32) := by decide
/-- V-JAL-5. -/
theorem test_jal_misaligned_leaves_link : raised 1#5 (run 0x7FFFF0EF (st 0x00001000#32 [(1#5, 0x00000007#32)] [])) =
    some (⟨.instructionAddressMisaligned, 0x00100FFE#32⟩, 0x00000007#32, 0x00001000#32) := by decide
/-- V-JALR-7. -/
theorem test_jalr_rd_is_base : reg 5#5 (run 0x000282E7 (st 0x00001000#32 [(5#5, 0x00002000#32)] [])) =
    some (0x00001004#32, 0x00002000#32) := by decide
/-- V-JALR-4. -/
theorem test_jalr_clears_bit_0 : reg 1#5 (run 0x001280E7 (st 0x00001000#32 [(5#5, 0x00002000#32)] [])) =
    some (0x00001004#32, 0x00002000#32) := by decide
/-- V-AUIPC-3. -/
theorem test_auipc_wraps : reg 5#5 (run 0xFFFFF297 (st 0x00001000#32 [(5#5, 0x00000009#32)] [])) =
    some (0x00000000#32, 0x00001004#32) := by decide
/-- V-LUI-1. -/
theorem test_lui_low_bits_zero : reg 5#5 (run 0x123452B7 (st 0x00001000#32 [(5#5, 0xFFFFFFFF#32)] [])) =
    some (0x12345000#32, 0x00001004#32) := by decide
/-- V-SYS-1. -/
theorem test_ecall : raised 10#5 (run 0x00000073 (st 0x00001000#32 [(10#5, 0x00000001#32)] [])) =
    some (⟨.environmentCall, 0x00001000#32⟩, 0x00000001#32, 0x00001000#32) := by decide
/-- V-SYS-2. -/
theorem test_ebreak : raised 0#5 (run 0x00100073 (st 0x00001000#32 [] [])) =
    some (⟨.breakpoint, 0x00001000#32⟩, 0x00000000#32, 0x00001000#32) := by decide
/-- V-MUL-4. -/
theorem test_mul_low_half : reg 3#5 (run 0x022081B3 (st 0x00001000#32 [(1#5, 0x12345678#32), (2#5, 0x9ABCDEF0#32)] [])) =
    some (0x242D2080#32, 0x00001004#32) := by decide
/-- V-MUL-5. -/
theorem test_mul_negative : reg 3#5 (run 0x022081B3 (st 0x00001000#32 [(1#5, 0x80000000#32), (2#5, 0xFFFFFFFF#32)] [])) =
    some (0x80000000#32, 0x00001004#32) := by decide

/-! ### The parameters' other values, permissions, a run's end -/

/-- The reset state with other parameters. -/
def under (c : Params) (s : State) : State := { s with params := c }

/-- 95_test_vectors.md 2.3 under `MISALIGNED_DATA = emulate`, V-LW-6 with the byte 0x11 at 0x2004. -/
theorem test_lw_emulated : reg 5#5 (run 0x00132283 (under { defaultParams with misalignedData := .emulate }
    (st 0x1000#32 [(6#5, 0x2000#32)] (loadCells ++ [(0x2004, 0x11#8)])))) = some (0x118899AA#32, 0x1004#32) := by decide

/-- A `MemMap` whose writable region ends at 0x2001, with the program's word executable. -/
def narrow : Params :=
  { defaultParams with memMap := [⟨0x1000, 4, true, false, true⟩, ⟨0x2000, 2, true, true, false⟩] }

/-- 95_test_vectors.md 2.4, access faults: none of the four bytes is written, and a byte with no permission does not load. -/
theorem test_sw_partly_writable : raised 6#5 (run 0x00732023 (under narrow (st 0x1000#32 [(6#5, 0x2000#32)] []))) =
    some (⟨.storeAccessFault, 0x2000#32⟩, 0x2000#32, 0x1000#32) := by decide
theorem test_lw_no_permission : raised 5#5 (run 0x00032283 (under narrow (st 0x1000#32 [(5#5, 7#32), (6#5, 0x3000#32)] []))) =
    some (⟨.loadAccessFault, 0x3000#32⟩, 7#32, 0x1000#32) := by decide

/-- 95_test_vectors.md 2.8, both policies, on V-UNL-10. -/
theorem test_unlisted_refused : run 0x00200073 State.reset = .refused (.unlistedWord 0x00200073#32) := rfl
theorem test_unlisted_raises : raised 0#5 (run 0x00200073 (under { defaultParams with unlistedPolicy := .illegalTrap }
    State.reset)) = some (⟨.illegalInstruction, 0x00200073#32⟩, 0#32, 0x1000#32) := by decide

/-- V-SYS-1 under `SYSTEM_IMM_MAP = card`: the word is `ebreak`. -/
theorem test_system_card : raised 0#5 (run 0x00000073 (under { defaultParams with sysImmMap := .card } State.reset)) =
    some (⟨.breakpoint, 0x1000#32⟩, 0#32, 0x1000#32) := by decide

/-- V-ADD-4: `rd = x0` discards the result. -/
theorem test_add_to_x0 : reg 0#5 (run 0x00208033 (st 0x1000#32 [(1#5, 5#32), (2#5, 7#32)] [])) =
    some (0#32, 0x1004#32) := by decide

/-- P9 of 95_test_vectors.md: a fetch of a byte a store has written is refused. -/
theorem test_fetch_after_store :
    step { State.reset with stored := [0x1003] } = .refused (.fetchAfterStore 0x1000#32) := rfl

/-- A run that has ended has no step. -/
theorem test_run_ended : step { State.reset with handover := some ⟨.breakpoint, 0x1000#32⟩ } =
    .fault (.runEnded ⟨.breakpoint, 0x1000#32⟩) := rfl

/-! ### Table 6: the instances of 95_test_vectors.md Part 1 -/

theorem test_expand_li : (expand (.li 5#5 0xDEADBEEF#32)).map (encode defaultParams) = [0xDEADC2B7#32, 0xEEF28293#32] ∧
    (expand (.li 5#5 0xFFFFFFFF#32)).map (encode defaultParams) = [0xFFF00293#32] := by decide
theorem test_expand_la :
    (expand (.la 5#5 0x1000#32 0x2804#32)).map (encode defaultParams) = [0x00002297#32, 0x80428293#32] := by decide
theorem test_expand_one_word :
    ([.beqz 10#5 12#13, .bnez 10#5 0x1FF8#13, .j 16#21, .jal 16#21, .jr 5#5, .mv 5#5 6#5, .neg 5#5 6#5, .nop, .not 5#5 6#5,
      .ret].flatMap expand).map (encode defaultParams) =
      [0x00050663#32, 0xFE051CE3#32, 0x0100006F#32, 0x010000EF#32, 0x00028067#32, 0x00030293#32, 0x406002B3#32,
       0x00000013#32, 0xFFF34293#32, 0x00008067#32] := by decide

/-! ### Witnesses: for every obligation with hypotheses, a concrete state and operands that meet them -/

/-- Two `nop` words at `RESET_PC`. -/
def nops : Memory := [(0x1000, 0x13#8), (0x1004, 0x13#8)]

/-- A reset state with those words. -/
def nopState : State := State.resetWith defaultParams 0x1000#32 defaultRegs nops

theorem nopState_isReset : IsReset nopState := ⟨_, _, _, _, by decide, by decide, rfl⟩
theorem nopState_step : step nopState = .next nopState.advance := rfl
theorem nopState_reaches : Reaches nopState nopState.advance := .next .refl nopState_step

/-- A raising state: `ecall` at `pc`. -/
def ecallState : State := State.reset.withFetchWord 32 0x00000073

/-- What it hands over. -/
def ecallEnd : State := { ecallState with handover := some ⟨.environmentCall, 0x1000#32⟩ }

theorem ecallState_step : step ecallState = .next ecallEnd := rfl

/-- A state that stores: `sw x7 0(x6)` at `pc`. -/
def swState : State := (st 0x1000#32 [(6#5, 0x2000#32), (7#5, 0x12345678#32)] storeCells).withFetchWord 32 0x00732023

/-- A state where the last byte of the fetch has no permission. -/
def noExec : State := under { defaultParams with memMap := [⟨0, 0x1003, true, true, true⟩] } State.reset

theorem witness_DecodingAnEncodingGivesTheInstructionBack :
    (Instr.bgeu 31#5 0#5 0x1000#13).wellFormed defaultParams = true ∧
    (Instr.jal 0#5 0x1FFFFE#21).wellFormed defaultParams = true ∧
    (Instr.mul 1#5 2#5 3#5).wellFormed defaultParams = true := by decide

theorem witness_EveryListedWordIsTheEncodingOfItsInstruction :
    decodeWord defaultParams 0x80000063#32 = .ok (.beq 0#5 0#5 0x1000#13) := by decide

/-- A row that matches, a word that decodes, and two rows (the same one) that match. -/
theorem witness_TheOpcodeMapDecidesDecoding :
    (∃ row ∈ opcodeRows defaultParams, row.covers 0x40435293#32 = true) ∧
    decodeWord defaultParams 0x40435293#32 = .ok (.srai 5#5 6#5 4#5) := by decide

/-- One word for each class (a) to (i) of R89, at the edge of the class. -/
theorem witness_NearbyWordsAreUnlisted :
    (opcodeOf 0x04208033#32 = 0b0110011#7 ∧ funct7Of 0x04208033#32 = 0b0000010#7) ∧
    (opcodeOf 0x4020F1B3#32 = 0b0110011#7 ∧ funct7Of 0x4020F1B3#32 = 0b0100000#7 ∧ funct3Of 0x4020F1B3#32 = 0b111#3) ∧
    (opcodeOf 0x022091B3#32 = 0b0110011#7 ∧ funct7Of 0x022091B3#32 = 0b0000001#7 ∧ funct3Of 0x022091B3#32 = 0b001#3) ∧
    (opcodeOf 0x02035293#32 = 0b0010011#7 ∧ funct3Of 0x02035293#32 = 0b101#3 ∧ funct7Of 0x02035293#32 = 0b0000001#7) ∧
    (opcodeOf 0x00033283#32 = 0b0000011#7 ∧ funct3Of 0x00033283#32 ∈ [0b011#3, 0b110#3, 0b111#3]) ∧
    (opcodeOf 0x00733023#32 = 0b0100011#7 ∧ 3 ≤ (funct3Of 0x00733023#32).toNat) ∧
    (opcodeOf 0x0020B063#32 = 0b1100011#7 ∧ funct3Of 0x0020B063#32 ∈ [0b010#3, 0b011#3]) ∧
    (opcodeOf 0x00009067#32 = 0b1100111#7 ∧ funct3Of 0x00009067#32 ≠ 0b000#3) ∧
    (opcodeOf 0x00200073#32 = 0b1110011#7 ∧ 0x00200073#32 ≠ 0x00000073#32 ∧ 0x00200073#32 ≠ 0x00100073#32) ∧
    opcodeOf 0x0FF0000F#32 ∉ [0b0000011#7, 0b0010011#7, 0b0010111#7, 0b0100011#7, 0b0110011#7, 0b0110111#7,
      0b1100011#7, 0b1100111#7, 0b1101111#7, 0b1110011#7] := by decide

theorem witness_StepRunsTheDecodedInstruction :
    nopState.handover = none ∧ nopState.pc.toNat % 4 = 0 ∧ Permitted nopState .x nopState.pc 4 ∧
    (∀ k < 4, (nopState.pc + BitVec.ofNat 32 k).toNat ∉ nopState.stored) ∧
    decodeBytes nopState.params [nopState.byte nopState.pc, nopState.byte (nopState.pc + 1#32),
      nopState.byte (nopState.pc + 2#32), nopState.byte (nopState.pc + 3#32)] = .ok (.addi 0#5 0#5 0#12, []) := by
  unfold Permitted; decide

/-- The four cases of a fetch: `pc` one below and one above a multiple of 4, the last byte not executable, the last byte
stored, and none of these. -/
theorem witness_FetchChecksThenReadsLittleEndian :
    (({ nopState with pc := 0xFFF#32 } : State).pc.toNat % 4 ≠ 0 ∧ ({ nopState with pc := 0x1001#32 } : State).pc.toNat % 4 ≠ 0) ∧
    (noExec.pc.toNat % 4 = 0 ∧ ¬Permitted noExec .x noExec.pc 4 ∧ noExec.handover = none) ∧
    (Permitted { nopState with stored := [0x1003] } .x 0x1000#32 4 ∧
      ∃ k < 4, (nopState.pc + BitVec.ofNat 32 k).toNat ∈ [0x1003]) ∧
    (nopState.pc.toNat % 4 = 0 ∧ Permitted nopState .x nopState.pc 4 ∧
      ¬∃ k < 4, (nopState.pc + BitVec.ofNat 32 k).toNat ∈ nopState.stored) := by
  unfold Permitted; decide

/-- An unlisted word fetched, under each policy. -/
theorem witness_UnlistedWordsAreRefusedOrRaise :
    State.reset.fetch = .word 0#32 ∧ decodeWord State.reset.params 0#32 = .error .unlistedOpcode ∧
    State.reset.handover = none ∧ State.reset.params.unlistedPolicy = .refuse ∧
    (under { defaultParams with unlistedPolicy := .illegalTrap } State.reset).fetch = .word 0#32 := by decide

theorem witness_ARunEndsAtItsHandoverUntilANewLaunch :
    ecallEnd.handover = some ⟨.environmentCall, 0x1000#32⟩ := rfl

/-- `RESET_PC` at the ends of the space, and where its word may be fetched. -/
theorem witness_ResetGivesTheStateTheSpecGives :
    (0#32).toNat % 4 = 0 ∧ (0xFFFFFFFC#32).toNat % 4 = 0 ∧
    Permitted (State.resetWith defaultParams 0xFFFFFFFC#32 defaultRegs nops) .x 0xFFFFFFFC#32 4 ∧
    Permitted (State.resetWith defaultParams 0#32 defaultRegs nops) .x 0#32 4 := by
  unfold Permitted; decide

theorem witness_EveryStepKeepsTheInvariant : ∃ t, swState.Inv ∧ step swState = .next t :=
  ⟨_, ⟨by decide, by decide, by decide⟩, rfl⟩

theorem witness_PcStaysAlignedAlongEveryRun : IsReset nopState ∧ Reaches nopState nopState.advance :=
  ⟨nopState_isReset, nopState_reaches⟩

/-- A raise by an instruction and by a step; a raise by a step that decodes nothing. -/
theorem witness_ExceptionsArePrecise :
    ecallState.handover = none ∧ ecallEnd.handover = some ⟨.environmentCall, 0x1000#32⟩ ∧
    (∃ i, exec i ecallState = .next ecallEnd) ∧ step ecallState = .next ecallEnd ∧
    step noExec = .next { noExec with handover := some ⟨.instructionAccessFault, 0x1000#32⟩ } :=
  ⟨rfl, rfl, ⟨.ecall, rfl⟩, rfl, rfl⟩

theorem witness_OnlyTheListedCausesAreRaised :
    ecallState.handover = none ∧ exec .ecall ecallState = .next ecallEnd ∧ step ecallState = .next ecallEnd ∧
    ecallEnd.handover = some ⟨.environmentCall, 0x1000#32⟩ := ⟨rfl, rfl, rfl, rfl⟩

theorem witness_OnlyStoresChangeMemory :
    ∃ t, (Instr.lw 5#5 6#5 0#12).isStore = false ∧ exec (.lw 5#5 6#5 0#12) swState = .next t := ⟨_, rfl, rfl⟩

/-- An instruction that completes and one that raises. -/
theorem witness_OnlyControlInstructionsRedirectPc :
    (∃ t, (Instr.lw 5#5 6#5 0#12).isControl = false ∧ exec (.lw 5#5 6#5 0#12) swState = .next t ∧ t.handover = none) ∧
    (∃ t, (Instr.lw 5#5 6#5 1#12).isControl = false ∧ exec (.lw 5#5 6#5 1#12) swState = .next t ∧ t.handover ≠ none) :=
  ⟨⟨_, rfl, rfl, by decide⟩, ⟨_, rfl, rfl, by decide⟩⟩

theorem witness_UnnamedRegistersAreNeitherReadNorWritten :
    ∃ t, exec (.add 3#5 1#5 2#5) swState = .next t ∧ (Instr.add 3#5 1#5 2#5).rd? ≠ some 31#5 ∧
      31#5 ∉ sources (.add 3#5 1#5 2#5) := ⟨_, rfl, by decide, by decide⟩

theorem witness_WritesToX0AreDiscarded :
    ∃ t, (Instr.lw 0#5 6#5 0#12).rd? = some 0#5 ∧ exec (.lw 0#5 6#5 0#12) swState = .next t := ⟨_, rfl, rfl⟩

/-- A step that changes a byte. -/
theorem witness_StepsKeepParametersAndRecordStores :
    ∃ t, step swState = .next t ∧ t.byte 0x2000#32 ≠ swState.byte 0x2000#32 := ⟨_, rfl, by decide⟩

theorem witness_AFetchedWordIsTheWordLoadedBeforeReset :
    IsReset nopState ∧ nopState.params.ifetchAfterStore = .refuse ∧ Reaches nopState nopState.advance ∧
    nopState.advance.fetch = .word 0x00000013#32 := ⟨nopState_isReset, rfl, nopState_reaches, rfl⟩

/-- A loaded state that steps, and one whose `sw` is recorded. -/
theorem witness_EveryStepKeepsTheProgramAsLoaded :
    AsLoaded nops nopState ∧ step nopState = .next nopState.advance ∧ nopState.params.ifetchAfterStore = .refuse ∧
    nopState.fetch = .word 0x00000013#32 ∧ AsLoaded swState.mem swState ∧ ∃ t, step swState = .next t ∧ t.stored ≠ [] :=
  ⟨fun _ _ => rfl, nopState_step, rfl, rfl, fun _ _ => rfl, _, rfl, by decide⟩

/-- Each width; a misaligned address; an aligned one not permitted; the last word of the space. -/
theorem witness_MemReadChecksThenReadsEveryByte :
    ¬AlignmentAllows State.reset 0x2003#32 4 ∧
    (AlignmentAllows noExec 0x1004#32 4 ∧ ¬Permitted noExec .r 0x1004#32 4) ∧
    (AlignmentAllows State.reset 0xFFFFFFFC#32 4 ∧ Permitted State.reset .r 0xFFFFFFFC#32 4) ∧
    (AlignmentAllows State.reset 0xFFFFFFFF#32 1 ∧ Permitted State.reset .r 0xFFFFFFFF#32 1) := by
  unfold Permitted AlignmentAllows; decide

theorem witness_MemWriteChecksThenReplacesExactlyItsBytes :
    ¬AlignmentAllows State.reset 0x2001#32 2 ∧
    (AlignmentAllows (under narrow State.reset) 0x2000#32 4 ∧ ¬Permitted (under narrow State.reset) .w 0x2000#32 4) ∧
    (AlignmentAllows (under narrow State.reset) 0x2000#32 2 ∧ Permitted (under narrow State.reset) .w 0x2000#32 2) := by
  unfold Permitted AlignmentAllows; decide

/-- `sw`, `sh` and `sb` of x7 at `0(x6)`, then a load by another base: x8 reaches the stored address, x9 its last byte for
`sw`, x10 the byte after the word, x11 the byte before it. -/
def latestState : State :=
  (((swState.setX 8#5 0x2004#32).setX 9#5 0x2003#32).setX 10#5 0x2004#32).setX 11#5 0x1FFF#32

theorem witness_ALoadReturnsTheLatestStore :
    latestState.handover = none ∧
    (∀ p ∈ [(Instr.sb 7#5 6#5 0#12, 1), (.sh 7#5 6#5 0#12, 2), (.sw 7#5 6#5 0#12, 4)],
      ∃ t, exec p.1 latestState = .next t ∧ t.handover = none ∧
        t.loadAddr 8#5 0xFFC#12 = latestState.storeAddr 6#5 0#12 + BitVec.ofNat 32 0) ∧
    (∃ t, exec (.sw 7#5 6#5 0#12) latestState = .next t ∧
      t.loadAddr 9#5 0#12 = latestState.storeAddr 6#5 0#12 + BitVec.ofNat 32 3 ∧
      ¬InAccess (latestState.storeAddr 6#5 0#12) 4 (t.loadAddr 10#5 0#12) ∧
      ¬InAccess (latestState.storeAddr 6#5 0#12) 4 (t.loadAddr 11#5 0#12)) ∧
    Permitted latestState .r (latestState.storeAddr 6#5 0#12) 4 ∧
    Permitted latestState .r (latestState.storeAddr 6#5 0#12) 2 ∧
    Permitted latestState .r 0x1FFF#32 1 ∧ Permitted latestState .r 0x2000#32 1 ∧ Permitted latestState .r 0x2003#32 1 ∧
    Permitted latestState .r 0x2004#32 1 := by
  refine ⟨rfl, ?_, ⟨_, rfl, rfl, ?_, ?_⟩, ?_⟩
  · rw [List.forall_mem_cons, List.forall_mem_cons, List.forall_mem_cons]
    exact ⟨⟨_, rfl, rfl, rfl⟩, ⟨_, rfl, rfl, rfl⟩, ⟨_, rfl, rfl, rfl⟩, fun _ h => absurd h (List.not_mem_nil)⟩
  · show ¬∃ i < 4, 0x2004#32 = 0x2000#32 + BitVec.ofNat 32 i
    decide
  · show ¬∃ i < 4, 0x1FFF#32 = 0x2000#32 + BitVec.ofNat 32 i
    decide
  · unfold Permitted; decide

/-- A word of each row of Table 1 named in AddAndSubAreModulo to SetLessThanImmediateComparesSignedAndUnsigned, with every
operand bit set. -/
theorem witness_ArithmeticRows :
    ([0x00000033#32, 0x40000033#32, 0x00007033#32, 0x00006033#32, 0x00004033#32, 0x00001033#32, 0x00005033#32,
      0x40005033#32, 0x00002033#32, 0x00003033#32, 0x00001013#32, 0x00005013#32, 0x40005013#32].all
      fun p => (p ||| 0x01FF8F80#32) &&& 0xFE00707F#32 == p) = true ∧
    ([0x00000013#32, 0x00007013#32, 0x00006013#32, 0x00004013#32, 0x00002013#32, 0x00003013#32].all
      fun p => (p ||| 0xFFFF8F80#32) &&& 0x0000707F#32 == p) = true := ⟨rfl, rfl⟩

/-- A word of each row of Tables 2 to 4 whose mask leaves operands. -/
theorem witness_OtherRows :
    ([0x00000003#32, 0x00004003#32, 0x00001003#32, 0x00005003#32, 0x00002003#32, 0x00000023#32, 0x00001023#32,
      0x00002023#32, 0x00000063#32, 0x00001063#32, 0x00004063#32, 0x00005063#32, 0x00006063#32, 0x00007063#32,
      0x00000067#32].all fun p => (p ||| 0xFFFF8F80#32) &&& 0x0000707F#32 == p) = true ∧
    ([0x00000017#32, 0x00000037#32, 0x0000006F#32].all fun p => (p ||| 0xFFFFFF80#32) &&& 0x0000007F#32 == p) = true := ⟨rfl, rfl⟩

/-- The three cases of every load, for each width, at `x[6] + imm` with `x[6] = 0x2000`. -/
theorem witness_Loads :
    (¬AlignmentAllows swState (swState.loadAddr 6#5 1#12) 2 ∧ ¬AlignmentAllows swState (swState.loadAddr 6#5 2#12) 4) ∧
    (∀ n ∈ [1, 2, 4], AlignmentAllows (under narrow swState) ((under narrow swState).loadAddr 6#5 4#12) n ∧
      ¬Permitted (under narrow swState) .r ((under narrow swState).loadAddr 6#5 4#12) n) ∧
    (∀ n ∈ [1, 2, 4], AlignmentAllows swState (swState.loadAddr 6#5 0#12) n ∧
      Permitted swState .r (swState.loadAddr 6#5 0#12) n) := by
  unfold Permitted AlignmentAllows; decide

/-- The three cases of every store, for each width; the word whose last byte alone is not writable. -/
theorem witness_Stores :
    (¬AlignmentAllows swState (swState.storeAddr 6#5 1#12) 2 ∧ ¬AlignmentAllows swState (swState.storeAddr 6#5 2#12) 4) ∧
    (∀ n ∈ [1, 2, 4], AlignmentAllows (under narrow swState) ((under narrow swState).storeAddr 6#5 4#12) n ∧
      ¬Permitted (under narrow swState) .w ((under narrow swState).storeAddr 6#5 4#12) n) ∧
    (∀ n ∈ [1, 2, 4], AlignmentAllows swState (swState.storeAddr 6#5 0#12) n ∧
      Permitted swState .w (swState.storeAddr 6#5 0#12) n) := by
  unfold Permitted AlignmentAllows; decide

/-- Registers that make each branch condition true and false, and offsets to an aligned and a misaligned target. -/
theorem witness_Branches :
    let s := st 0x1000#32 [(1#5, 0x80000000#32), (2#5, 0x7FFFFFFF#32), (3#5, 0x7FFFFFFF#32)] []
    (s.x 2#5 = s.x 3#5 ∧ s.x 1#5 ≠ s.x 2#5) ∧
    ((s.x 1#5).toInt < (s.x 2#5).toInt ∧ ¬(s.x 2#5).toInt < (s.x 3#5).toInt) ∧
    ((s.x 2#5).toInt ≥ (s.x 3#5).toInt ∧ ¬(s.x 1#5).toInt ≥ (s.x 2#5).toInt) ∧
    ((s.x 2#5).toNat < (s.x 1#5).toNat ∧ ¬(s.x 1#5).toNat < (s.x 2#5).toNat) ∧
    ((s.x 1#5).toNat ≥ (s.x 2#5).toNat ∧ ¬(s.x 2#5).toNat ≥ (s.x 1#5).toNat) ∧
    (s.pc + BitVec.ofInt 32 (0x1000#13).toInt).toNat % 4 = 0 ∧
    (s.pc + BitVec.ofInt 32 (0x0FFE#13).toInt).toNat % 4 ≠ 0 := by decide

/-- Both cases of `jal` and of `jalr`. -/
theorem witness_Jumps :
    let s := st 0x1000#32 [(5#5, 0x2000#32)] []
    (s.pc + BitVec.ofInt 32 (0x100000#21).toInt).toNat % 4 = 0 ∧
    (s.pc + BitVec.ofInt 32 (0x0FFFFE#21).toInt).toNat % 4 ≠ 0 ∧
    ((((s.x 5#5).toNat : Int) + (1#12).toInt) % 2 ^ 32 / 2 * 2 = 0x2000) ∧
    ((((s.x 5#5).toNat : Int) + (3#12).toInt) % 2 ^ 32 / 2 * 2 = 0x2002) := by decide

theorem witness_EbreakAndEcallAlwaysRaise : defaultParams.sysImmMap = .official := rfl

/-- Words of the row of `mul`, with `EXT_MUL` either way. -/
theorem witness_MulKeepsTheLowHalfOfTheProduct :
    0x03FF8FB3#32 &&& 0xFE00707F#32 = 0x02000033#32 ∧ defaultParams.extMul = true ∧
    ({ defaultParams with extMul := false } : Params).extMul = false := by decide

/-- Constants at both ends of 12 signed bits, just outside them, and outside with the low 12 bits zero. -/
theorem witness_LiLoadsEveryConstant :
    (-2048 ≤ (0xFFFFF800#32).toInt ∧ (0xFFFFF800#32).toInt ≤ 2047) ∧
    (-2048 ≤ (0x7FF#32).toInt ∧ (0x7FF#32).toInt ≤ 2047) ∧
    (¬(-2048 ≤ (0x800#32).toInt ∧ (0x800#32).toInt ≤ 2047) ∧ (0x800#32).extractLsb' 0 12 ≠ 0#12) ∧
    (¬(-2048 ≤ (0xFFFFF000#32).toInt ∧ (0xFFFFF000#32).toInt ≤ 2047) ∧ (0xFFFFF000#32).extractLsb' 0 12 = 0#12) := by
  decide

/-- A fetch of what a little-endian write left at `pc`. -/
theorem witness_MemoryIsLittleEndian :
    nopState.mem.writeLE 0x1000#32 4 0x00000013#32 = nopState.mem ∧ nopState.pc = 0x1000#32 ∧
    nopState.fetch = .word 0x00000013#32 := by decide

/-- `jr` and `ret` to addresses of each residue modulo 4; a register that is zero and one that is not; offsets of `beqz`,
`bnez`, `j` and `jal` to an aligned and a misaligned target. -/
theorem witness_OneInstructionPseudoinstructionsExpandAndRun :
    let s := st 0x1000#32 [(1#5, 0x2000#32), (2#5, 0x2001#32), (3#5, 0x2002#32), (4#5, 0x2003#32)] []
    ((s.x 1#5).toNat % 4 < 2 ∧ (s.x 2#5).toNat % 4 < 2 ∧ 2 ≤ (s.x 3#5).toNat % 4 ∧ 2 ≤ (s.x 4#5).toNat % 4) ∧
    2 ≤ ((s.setX 1#5 0x2002#32).x 1#5).toNat % 4 ∧
    (s.x 0#5 = 0#32 ∧ s.x 1#5 ≠ 0#32) ∧
    (s.pc + BitVec.ofInt 32 (0x1000#13).toInt).toNat % 4 = 0 ∧
    (s.pc + BitVec.ofInt 32 (0x0FFE#13).toInt).toNat % 4 ≠ 0 ∧
    (s.pc + BitVec.ofInt 32 (0x100000#21).toInt).toNat % 4 = 0 ∧
    (s.pc + BitVec.ofInt 32 (0x0FFFFE#21).toInt).toNat % 4 ≠ 0 := by decide

/-- Distances at the ends of both ranges, just outside them, and odd. -/
theorem witness_AssembledOffsetsReachTheirLabel :
    assembleBranchOffset 0x1000#32 0x0#32 = some 0x1000#13 ∧ assembleBranchOffset 0x1000#32 0x1FFE#32 = some 0xFFE#13 ∧
    assembleJalOffset 0x1000#32 0xFFF01000#32 = some 0x100000#21 ∧
    assembleJalOffset 0x1000#32 0x100FFE#32 = some 0xFFFFE#21 ∧
    (0x0#32 - 0x1000#32).toInt = -4096 ∧ (0x1FFE#32 - 0x1000#32).toInt = 4094 ∧
    (0xFFFFFFFE#32 - 0x1000#32).toInt = -4098 ∧ (0x2000#32 - 0x1000#32).toInt = 4096 ∧
    (0xFFF01000#32 - 0x1000#32).toInt = -1048576 ∧ (0x100FFE#32 - 0x1000#32).toInt = 1048574 ∧
    (0xFFF00FFE#32 - 0x1000#32).toInt = -1048578 ∧ (0x101000#32 - 0x1000#32).toInt = 1048576 ∧
    (0x1001#32 - 0x1000#32).toInt % 2 ≠ 0 := by decide

/-- Values at the ends of each range and just outside it. -/
theorem witness_OperandsInRangeAreAssembled :
    (∀ v ∈ [-2048, 2047], (-2048 : Int) ≤ v ∧ v ≤ 2047) ∧ (∀ v ∈ [-2049, 2048], ¬((-2048 : Int) ≤ v ∧ v ≤ 2047)) ∧
    31 ≤ 31 ∧ 31 < 32 ∧ 1048575 ≤ 1048575 ∧ 1048575 < 1048576 := by decide

end Sys2Proof.Tests
end

section
/-! PROOFS. The whole-machine rules of 00_scope.md: every instruction has a next state (R16), a step runs the decoded
instruction and nothing else (R16, 20_memory.md R47), and what every step keeps (R7, 20_memory.md R53, R57). -/

namespace Sys2Proof.Machine

/-! ### Where the fetch gives a word, and where a step runs an instruction -/

/-- The fetch reads the word at `pc` when none of the checks of 20_memory.md R47 stops it. -/
theorem fetch_eq_word {s : State} (ha : s.pc.toNat % 4 = 0) (hp : Permitted s .x s.pc 4)
    (hf : s.params.ifetchAfterStore = .coherent ∨ ∀ k < 4, (s.pc + BitVec.ofNat 32 k).toNat ∉ s.stored) :
    s.fetch = .word (s.mem.readLE s.pc 4) := by
  rcases fetch_cases s with ⟨hna, -⟩ | ⟨-, hnp, -⟩ | ⟨-, -, hrefuse, hstored, -⟩ | ⟨-, -, -, e⟩
  · exact absurd ha hna
  · exact absurd hp hnp
  · obtain ⟨k, hk, hmem⟩ := (fetchesStored_iff s).1 hstored
    rcases hf with hcoherent | hfresh
    · simp [hrefuse] at hcoherent
    · exact absurd hmem (hfresh k hk)
  · exact e

/-- The fetched word is the four bytes at `pc` in memory order (30_encoding.md R70). -/
theorem wordOfBytes_byte (s : State) (a : Word) :
    wordOfBytes (s.byte a) (s.byte (a + 1#32)) (s.byte (a + 2#32)) (s.byte (a + 3#32)) = s.mem.readLE a 4 :=
  (readLE_four s.mem a).symm

/-- Four bytes decode to `i` with nothing left over only when their word does. -/
theorem decodeWord_of_decodeBytes {c : Params} {b0 b1 b2 b3 : Byte} {i : Instr} {rest : List Byte}
    (h : decodeBytes c [b0, b1, b2, b3] = .ok (i, rest)) : decodeWord c (wordOfBytes b0 b1 b2 b3) = .ok i := by
  unfold decodeBytes at h
  cases hd : decodeWord c (wordOfBytes b0 b1 b2 b3) with
  | error e => simp [hd] at h
  | ok j =>
    obtain ⟨rfl, -⟩ : j = i ∧ [] = rest := by simpa [hd] using h
    rfl

/-- A step with a listed word fetched is that word's instruction (00_scope.md R16). -/
theorem step_eq_exec {s : State} {w : Word} {i : Instr} (hh : s.handover = none) (hf : s.fetch = .word w)
    (hd : decodeWord s.params w = .ok i) : step s = exec i s := by
  simp [step, runWord, hh, hf, hd]

/-! ### Which steps give a next state -/

/-- The inversion lemma for steps: a step with a next state starts before any hand-over, and either raises or runs the
instruction it fetched. -/
theorem raise_or_exec_of_step {s t : State} (h : step s = .next t) :
    s.handover = none ∧
    ((∃ e, raise e s = .next t) ∨
      ∃ w i, s.fetch = .word w ∧ decodeWord s.params w = .ok i ∧ exec i s = .next t) := by
  rcases step_cases s with ⟨_, _, e⟩ | ⟨hh, x, _, e⟩ | ⟨_, _, _, e⟩ | ⟨hh, w, _, _, _, e⟩ | ⟨hh, w, i, hf, hd, e⟩
  · simp [e] at h
  · exact ⟨hh, .inl ⟨x, e ▸ h⟩⟩
  · simp [e] at h
  · rcases unlisted_cases w s with ⟨_, eu⟩ | ⟨_, eu⟩
    · simp [e, eu] at h
    · exact ⟨hh, .inl ⟨_, eu ▸ e ▸ h⟩⟩
  · exact ⟨hh, .inr ⟨w, i, hf, hd, e ▸ h⟩⟩

/-! ### The parameters and the record of stored bytes -/

/-- A store records its own bytes beside those recorded before (20_memory.md R57). -/
theorem mem_stored_storeBytes (s : State) (ea : Word) (n : Nat) (v : BitVec (8 * n)) (k : Nat) :
    k ∈ (s.storeBytes ea n v).stored ↔ k ∈ s.stored ∨ ∃ i < n, k = (ea + BitVec.ofNat 32 i).toNat := by
  simp only [storeBytes_stored, mem_markStored, mem_byteAddrs]
  constructor
  · rintro (h | ⟨_, ⟨i, hi, rfl⟩, h⟩)
    · exact .inl h
    · exact .inr ⟨i, hi, h⟩
  · rintro (h | ⟨i, hi, h⟩)
    · exact .inl h
    · exact .inr ⟨_, ⟨i, hi, rfl⟩, h⟩

/-- A byte a store changes is one of its access, so the store records it. -/
theorem mem_stored_of_storeBytes_byte_ne {s : State} {ea : Word} {n : Nat} {v : BitVec (8 * n)} {a : Word}
    (h : (s.storeBytes ea n v).byte a ≠ s.byte a) : a.toNat ∈ (s.storeBytes ea n v).stored := by
  obtain ⟨i, hi, rfl⟩ : InAccess ea n a := by
    by_contra hout
    exact h (storeBytes_byte_outside s ea n v a hout)
  exact (mem_stored_storeBytes ..).2 (.inr ⟨i, hi, rfl⟩)

/-- What 00_scope.md R7 and 20_memory.md R53, R57 keep between two states: the parameters, the bytes recorded as stored,
and that a byte which differs is recorded. -/
structure KeepsRecord (s t : State) : Prop where
  params : t.params = s.params
  grows : ∀ k ∈ s.stored, k ∈ t.stored
  records : ∀ a : Word, t.byte a ≠ s.byte a → a.toNat ∈ t.stored

/-- Every byte and the record as they were: nothing has to be recorded. -/
theorem KeepsRecord.of_same {s t : State} (hp : t.params = s.params) (hs : t.stored = s.stored) (hb : SameBytes s t) :
    KeepsRecord s t where
  params := hp
  grows _ hk := hs ▸ hk
  records a ha := absurd (hb a) ha

theorem storeBytes_keepsRecord (s : State) (ea : Word) (n : Nat) (v : BitVec (8 * n)) :
    KeepsRecord s (s.storeBytes ea n v).advance where
  params := rfl
  grows k hk := (mem_stored_storeBytes s ea n v k).2 (.inl hk)
  records _ ha := mem_stored_of_storeBytes_byte_ne ha

theorem raise_keepsRecord {h : Handover} {s t : State} (e : raise h s = .next t) : KeepsRecord s t := by
  cases e
  exact .of_same rfl rfl fun _ => rfl

/-- Of the six effects of an instruction only a store touches memory or the record. -/
theorem Effect.keepsRecord {i : Instr} {s t : State} (e : Effect i s t) : KeepsRecord s t := by
  cases e with
  | raises h => exact raise_keepsRecord rfl
  | stores ea n v => exact storeBytes_keepsRecord s ea n v
  | writes rd v => exact .of_same (by simp) (by simp) fun a => by simp
  | branches a => exact .of_same rfl rfl fun _ => rfl
  | jumps rd a => exact .of_same (by simp) (by simp) fun a => by simp
  | falls => exact .of_same rfl rfl fun _ => rfl

theorem step_keepsRecord {s t : State} (h : step s = .next t) : KeepsRecord s t := by
  obtain ⟨-, ⟨e, hraise⟩ | ⟨w, i, -, -, hexec⟩⟩ := raise_or_exec_of_step h
  · exact raise_keepsRecord hraise
  · exact (effect_of_exec hexec).keepsRecord

/-! ### The obligations -/

/-- Settles O16: every instruction has an effect, and each of the six effects is a next state. -/
theorem everyInstructionHasANextState : Obligations.EveryInstructionHasANextState := by
  intro i s
  obtain ⟨t, ht, -⟩ := exec_effect i s
  exact ⟨t, ht⟩

/-- Settles O23, by the cases of a step: a raise changes neither memory nor the record, and of the effects of an
instruction only a store does, which records the bytes it writes. -/
theorem stepsKeepParametersAndRecordStores : Obligations.StepsKeepParametersAndRecordStores := by
  intro s t h
  obtain ⟨hparams, hgrows, hrecords⟩ := step_keepsRecord h
  exact ⟨hparams, hgrows, hrecords⟩

/-- Settles O8: the checks of the fetch pass, so the word fetched is the four bytes that decode to the instruction. -/
theorem stepRunsTheDecodedInstruction : Obligations.StepRunsTheDecodedInstruction := by
  intro s i hh ha hp hf hdecode
  have hword := decodeWord_of_decodeBytes hdecode
  rw [wordOfBytes_byte] at hword
  exact step_eq_exec hh (fetch_eq_word ha hp hf) hword

end Sys2Proof.Machine
end

section
/-! PROOFS. The rules of 10_state.md: reset meets the invariant and every step keeps it (R27, R34), where `pc` goes (R25,
R26), and which registers an instruction reads and writes (R21, R22). -/

namespace Sys2Proof.Machine

/-! ### The invariant at reset, over a step and along a run -/

/-- The model's own reset state is one the spec allows: its `RESET_PC` is a multiple of 4, its `InitMem` empty. -/
theorem reset_isReset : IsReset State.reset :=
  ⟨defaultParams, defaultResetPc, defaultRegs, [], by decide, by decide, rfl⟩

/-- Every reset state meets the invariant: `RESET_PC` and `InitMem` by R34 and the canonical form, and no store yet. -/
theorem IsReset.inv {s : State} (h : IsReset s) : s.Inv := by
  obtain ⟨c, resetPc, xs, initMem, hpc, hmem, rfl⟩ := h
  exact ⟨hmem, hpc, .nil, by simp [State.resetWith]⟩

/-- Each of the six effects keeps the invariant: `pc` goes to an aligned target or advances by 4, and only a store touches
memory and the record. -/
theorem Effect.inv {i : Instr} {s t : State} (e : Effect i s t) (hs : s.Inv) : t.Inv := by
  cases e with
  | raises h => exact raise_inv (h := h) hs rfl
  | writes rd v => exact advance_inv (setX_inv hs rd v)
  | stores ea n v => exact advance_inv (storeBytes_inv hs ea n v)
  | branches a ha => exact setPc_inv hs ha
  | jumps rd a ha => exact setPc_inv (setX_inv hs rd _) ha
  | falls => exact advance_inv hs

theorem step_inv {s t : State} (hs : s.Inv) (h : step s = .next t) : t.Inv := by
  obtain ⟨-, ⟨e, hraise⟩ | ⟨w, i, -, -, hexec⟩⟩ := raise_or_exec_of_step h
  · exact raise_inv hs hraise
  · exact (effect_of_exec hexec).inv hs

/-- What holds at the start and is kept by every step holds along the run (60_exceptions.md R232). -/
theorem Reaches.keeps {P : State → Prop} {s t : State} (h : Reaches s t) (hs : P s)
    (hstep : ∀ u u' : State, P u → step u = .next u' → P u') : P t := by
  induction h with
  | refl => exact hs
  | next _ h ih => exact hstep _ _ ih h

theorem Reaches.inv {s t : State} (h : Reaches s t) (hs : s.Inv) : t.Inv :=
  h.keeps hs fun _ _ => step_inv

/-- The fetch checks the alignment of `pc` and of nothing else (20_memory.md R47 step 1). -/
theorem fetch_ne_misaligned {s : State} (ha : s.pc.toNat % 4 = 0) :
    s.fetch ≠ .raises ⟨.instructionAddressMisaligned, s.pc⟩ := by
  rcases fetch_cases s with ⟨hna, -⟩ | ⟨-, -, e⟩ | ⟨-, -, -, -, e⟩ | ⟨-, -, -, e⟩
  · exact absurd ha hna
  all_goals simp [e]

/-! ### The program counter and the registers after an instruction -/

/-- Without control transfer a raise is the one effect that does not advance `pc`, and it leaves `pc` alone. -/
theorem Effect.pc_of_not_control {i : Instr} {s t : State} (e : Effect i s t) (hc : i.isControl = false)
    (hs : s.handover = none) :
    (t.handover = none → t.pc = s.pc + 4#32) ∧ (t.handover ≠ none → t.pc = s.pc) := by
  cases e with
  | raises h => simp
  | writes rd v => simp [hs]
  | stores ea n v => simp [hs]
  | branches a ha hc' => simp [hc] at hc'
  | jumps rd a ha hrd hc' => simp [hc] at hc'
  | falls hc' => simp [hc] at hc'

/-- Only the register in the `rd` field is written (10_state.md R22). -/
theorem Effect.x_of_rd_ne {i : Instr} {s t : State} {r : Reg} (e : Effect i s t) (hr : i.rd? ≠ some r) :
    t.x r = s.x r := by
  cases e with
  | raises h => rfl
  | writes rd v hrd =>
    have hne : r ≠ rd := fun h => hr (h ▸ hrd)
    simp [x_setX_of_ne _ _ hne]
  | stores ea n v => rfl
  | branches a => rfl
  | jumps rd a ha hrd =>
    have hne : r ≠ rd := fun h => hr (h ▸ hrd)
    simp [x_setX_of_ne _ _ hne]
  | falls => rfl

/-- With `rd = x0` the written register is the one that discards the write (10_state.md R21). -/
theorem Effect.sameRegs_of_rd_zero {i : Instr} {s t : State} (e : Effect i s t) (h0 : i.rd? = some 0#5) :
    SameRegs s t := by
  intro r
  by_cases hr : r = 0#5
  · rw [hr, x_zero, x_zero]
  · exact e.x_of_rd_ne fun h => hr (Option.some.inj (h.symm.trans h0))

/-! ### `setX` passes through the other operations of the state -/

theorem setPc_setX (s : State) (r : Reg) (v a : Word) : (s.setX r v).setPc a = (s.setPc a).setX r v := by
  unfold State.setX; split <;> rfl

theorem advance_setX (s : State) (r : Reg) (v : Word) : (s.setX r v).advance = s.advance.setX r v := by
  unfold State.setX; split <;> rfl

theorem storeBytes_setX (s : State) (r : Reg) (v a : Word) (n : Nat) (u : BitVec (8 * n)) :
    (s.setX r v).storeBytes a n u = (s.storeBytes a n u).setX r v := by
  unfold State.setX; split <;> rfl

/-- Writes to two different registers commute. -/
theorem setX_setX_comm (s : State) {r q : Reg} (h : r ≠ q) (v w : Word) :
    (s.setX r v).setX q w = (s.setX q w).setX r v := by
  by_cases hr : r = 0#5
  · subst hr; rfl
  by_cases hq : q = 0#5
  · subst hq; rfl
  have hne : r.toNat - 1 ≠ q.toNat - 1 := by
    have := reg_toNat_ne_zero hr
    have := reg_toNat_ne_zero hq
    have : r.toNat ≠ q.toNat := fun e => h (BitVec.eq_of_toNat_eq e)
    omega
  simp [State.setX, hr, hq, Vector.set_comm _ _ hne]

@[simp] theorem trapsMisaligned_setX (s : State) (r : Reg) (v a : Word) (n : Nat) :
    (s.setX r v).trapsMisaligned a n = s.trapsMisaligned a n := by
  simp [State.trapsMisaligned]

@[simp] theorem permits_setX (s : State) (r : Reg) (v : Word) (p : Perm) (a : Word) (n : Nat) :
    (s.setX r v).permits p a n = s.permits p a n := by
  simp [State.permits]

/-- A load's access looks at no register. -/
@[simp] theorem memRead_setX (s : State) (r : Reg) (v a : Word) (n : Nat) :
    (s.setX r v).memRead a n = s.memRead a n := by
  simp [State.memRead]

/-! ### An instruction reads no register it does not name -/

/-- The outcome `o` with `x[r] <- v` done in its next state. -/
def thenSetX (r : Reg) (v : Word) : Host.Outcome State Fault Refusal → Host.Outcome State Fault Refusal
  | .next t => .next (t.setX r v)
  | .fault e => .fault e
  | .refused e => .refused e

@[simp] theorem thenSetX_next (r : Reg) (v : Word) (t : State) : thenSetX r v (.next t) = .next (t.setX r v) := rfl

section
variable {s : State} {r : Reg} {v : Word}

theorem raise_setX (h : Handover) : raise h (s.setX r v) = thenSetX r v (raise h s) := by
  unfold raise State.setX
  split <;> rename_i h0 <;> simp [State.setX, h0]

theorem writeBack_setX {rd : Reg} (hrd : rd ≠ r) (w : Word) :
    writeBack rd w (s.setX r v) = thenSetX r v (writeBack rd w s) := by
  simp [writeBack, setX_setX_comm s hrd.symm, advance_setX]

theorem loadInto_setX {rd : Reg} (hrd : rd ≠ r) (n : Nat) (ext : BitVec (8 * n) → Word) (ea : Word) :
    loadInto n ext rd ea (s.setX r v) = thenSetX r v (loadInto n ext rd ea s) := by
  unfold loadInto
  rw [memRead_setX]
  cases s.memRead ea n with
  | error h => exact raise_setX h
  | ok u => exact writeBack_setX hrd _

theorem storeFrom_setX (n : Nat) (u : BitVec (8 * n)) (ea : Word) :
    storeFrom n u ea (s.setX r v) = thenSetX r v (storeFrom n u ea s) := by
  simp only [storeFrom, State.memWrite, trapsMisaligned_setX, permits_setX, storeBytes_setX]
  split_ifs
  · exact raise_setX _
  · exact congrArg _ (advance_setX _ r v)
  · exact raise_setX _

theorem branchTo_setX (taken : Bool) (a : Word) :
    branchTo taken a (s.setX r v) = thenSetX r v (branchTo taken a s) := by
  unfold branchTo
  split
  · split
    · rw [setPc_setX, thenSetX_next]
    · exact raise_setX _
  · rw [advance_setX, thenSetX_next]

theorem jumpLink_setX {rd : Reg} (hrd : rd ≠ r) (a : Word) :
    jumpLink rd a (s.setX r v) = thenSetX r v (jumpLink rd a s) := by
  unfold jumpLink
  split
  · rw [setX_setX_comm s hrd.symm, setPc_setX, setX_pc, thenSetX_next]
  · exact raise_setX _

end

/-! ### Each form of operands, with a register written that is in none of its fields -/

section
variable {s : State} {r rd rs1 rs2 : Reg} {v : Word}

/-- A write to a register that is not in the list changes none of those that are. -/
theorem x_setX_of_not_mem {q : Reg} {l : List Reg} (hr : r ∉ l) (hq : q ∈ l) : (s.setX r v).x q = s.x q :=
  x_setX_of_ne s v fun e => hr (e ▸ hq)

theorem regReg_setX (f : Word → Word → Word) (hrd : some rd ≠ some r) (hr : r ∉ [rs1, rs2]) :
    writeBack rd (f ((s.setX r v).x rs1) ((s.setX r v).x rs2)) (s.setX r v) =
      thenSetX r v (writeBack rd (f (s.x rs1) (s.x rs2)) s) := by
  rw [x_setX_of_not_mem hr (by simp), x_setX_of_not_mem hr (by simp)]
  exact writeBack_setX (ne_of_apply_ne some hrd) _

theorem regImm_setX (f : Word → Word) (hrd : some rd ≠ some r) (hr : r ∉ [rs1]) :
    writeBack rd (f ((s.setX r v).x rs1)) (s.setX r v) = thenSetX r v (writeBack rd (f (s.x rs1)) s) := by
  rw [x_setX_of_not_mem hr (by simp)]
  exact writeBack_setX (ne_of_apply_ne some hrd) _

theorem upperImm_setX (f : Word → Word) (hrd : some rd ≠ some r) :
    writeBack rd (f (s.setX r v).pc) (s.setX r v) = thenSetX r v (writeBack rd (f s.pc) s) := by
  rw [setX_pc]
  exact writeBack_setX (ne_of_apply_ne some hrd) _

theorem load_setX (n : Nat) (ext : BitVec (8 * n) → Word) (imm : BitVec 12) (hrd : some rd ≠ some r)
    (hr : r ∉ [rs1]) :
    loadInto n ext rd ((s.setX r v).loadAddr rs1 imm) (s.setX r v) =
      thenSetX r v (loadInto n ext rd (s.loadAddr rs1 imm) s) := by
  rw [State.loadAddr, x_setX_of_not_mem hr (by simp)]
  exact loadInto_setX (ne_of_apply_ne some hrd) _ _ _

theorem store_setX (n : Nat) (f : Word → BitVec (8 * n)) (imm : BitVec 12) (hr : r ∉ [rs1, rs2]) :
    storeFrom n (f ((s.setX r v).x rs2)) ((s.setX r v).storeAddr rs1 imm) (s.setX r v) =
      thenSetX r v (storeFrom n (f (s.x rs2)) (s.storeAddr rs1 imm) s) := by
  rw [State.storeAddr, x_setX_of_not_mem hr (by simp), x_setX_of_not_mem hr (by simp)]
  exact storeFrom_setX _ _ _

theorem branch_setX (taken : Word → Word → Bool) (offset : BitVec 13) (hr : r ∉ [rs1, rs2]) :
    branchTo (taken ((s.setX r v).x rs1) ((s.setX r v).x rs2)) ((s.setX r v).branchTarget offset) (s.setX r v) =
      thenSetX r v (branchTo (taken (s.x rs1) (s.x rs2)) (s.branchTarget offset) s) := by
  rw [State.branchTarget, setX_pc, x_setX_of_not_mem hr (by simp), x_setX_of_not_mem hr (by simp)]
  exact branchTo_setX _ _

theorem jal_setX (offset : BitVec 21) (hrd : some rd ≠ some r) :
    jumpLink rd ((s.setX r v).jalTarget offset) (s.setX r v) = thenSetX r v (jumpLink rd (s.jalTarget offset) s) := by
  rw [State.jalTarget, setX_pc]
  exact jumpLink_setX (ne_of_apply_ne some hrd) _

theorem jalr_setX (imm : BitVec 12) (hrd : some rd ≠ some r) (hr : r ∉ [rs1]) :
    jumpLink rd ((s.setX r v).jalrTarget rs1 imm) (s.setX r v) =
      thenSetX r v (jumpLink rd (s.jalrTarget rs1 imm) s) := by
  rw [State.jalrTarget, x_setX_of_not_mem hr (by simp)]
  exact jumpLink_setX (ne_of_apply_ne some hrd) _

/-- `ebreak` and `ecall` report their own `pc`. -/
theorem raiseAtPc_setX (c : Exc) : raise ⟨c, (s.setX r v).pc⟩ (s.setX r v) = thenSetX r v (raise ⟨c, s.pc⟩ s) := by
  rw [setX_pc]
  exact raise_setX _

end

/-- A write to a register that an instruction names in no field commutes with it (10_state.md R22). -/
theorem exec_setX {i : Instr} {r : Reg} (s : State) (v : Word) (hrd : i.rd? ≠ some r) (hr : r ∉ sources i) :
    exec i (s.setX r v) = thenSetX r v (exec i s) := by
  cases i with
  | add rd rs1 rs2 => exact regReg_setX (· + ·) hrd hr
  | sub rd rs1 rs2 => exact regReg_setX (· - ·) hrd hr
  | and rd rs1 rs2 => exact regReg_setX (· &&& ·) hrd hr
  | or rd rs1 rs2 => exact regReg_setX (· ||| ·) hrd hr
  | xor rd rs1 rs2 => exact regReg_setX (· ^^^ ·) hrd hr
  | sll rd rs1 rs2 => exact regReg_setX (fun a b => a <<< shiftAmount b) hrd hr
  | srl rd rs1 rs2 => exact regReg_setX (fun a b => a >>> shiftAmount b) hrd hr
  | sra rd rs1 rs2 => exact regReg_setX (fun a b => a.sshiftRight (shiftAmount b)) hrd hr
  | slt rd rs1 rs2 => exact regReg_setX (fun a b => boolWord (ltSigned a b)) hrd hr
  | sltu rd rs1 rs2 => exact regReg_setX (fun a b => boolWord (ltUnsigned a b)) hrd hr
  | mul rd rs1 rs2 => exact regReg_setX (· * ·) hrd hr
  | addi rd rs1 imm => exact regImm_setX (· + immI imm) hrd hr
  | andi rd rs1 imm => exact regImm_setX (· &&& immI imm) hrd hr
  | ori rd rs1 imm => exact regImm_setX (· ||| immI imm) hrd hr
  | xori rd rs1 imm => exact regImm_setX (· ^^^ immI imm) hrd hr
  | slli rd rs1 shamt => exact regImm_setX (· <<< immShiftAmount shamt) hrd hr
  | srli rd rs1 shamt => exact regImm_setX (· >>> immShiftAmount shamt) hrd hr
  | srai rd rs1 shamt => exact regImm_setX (·.sshiftRight (immShiftAmount shamt)) hrd hr
  | slti rd rs1 imm => exact regImm_setX (fun a => boolWord (ltSigned a (immI imm))) hrd hr
  | sltiu rd rs1 imm => exact regImm_setX (fun a => boolWord (ltUnsigned a (immI imm))) hrd hr
  | lb rd rs1 imm => exact load_setX 1 (BitVec.signExtend 32) imm hrd hr
  | lbu rd rs1 imm => exact load_setX 1 (BitVec.setWidth 32) imm hrd hr
  | lh rd rs1 imm => exact load_setX 2 (BitVec.signExtend 32) imm hrd hr
  | lhu rd rs1 imm => exact load_setX 2 (BitVec.setWidth 32) imm hrd hr
  | lw rd rs1 imm => exact load_setX 4 id imm hrd hr
  | sb rs2 rs1 imm => exact store_setX 1 (·.extractLsb' 0 8) imm hr
  | sh rs2 rs1 imm => exact store_setX 2 (·.extractLsb' 0 16) imm hr
  | sw rs2 rs1 imm => exact store_setX 4 id imm hr
  | beq rs1 rs2 offset => exact branch_setX (· == ·) offset hr
  | bne rs1 rs2 offset => exact branch_setX (· != ·) offset hr
  | blt rs1 rs2 offset => exact branch_setX ltSigned offset hr
  | bltu rs1 rs2 offset => exact branch_setX ltUnsigned offset hr
  | bge rs1 rs2 offset => exact branch_setX geSigned offset hr
  | bgeu rs1 rs2 offset => exact branch_setX geUnsigned offset hr
  | jal rd offset => exact jal_setX offset hrd
  | jalr rd rs1 imm => exact jalr_setX imm hrd hr
  | auipc rd immu => exact upperImm_setX (· + immU immu) hrd
  | lui rd immu => exact upperImm_setX (fun _ => immU immu) hrd
  | ebreak => exact raiseAtPc_setX .breakpoint
  | ecall => exact raiseAtPc_setX .environmentCall

/-! ### The obligations of 10_state.md -/

/-- Settles O14: a step that answers a next state raises, which leaves what the invariant speaks of alone, or has one of
the six effects of an instruction, each of which keeps it. -/
theorem everyStepKeepsTheInvariant : Obligations.EveryStepKeepsTheInvariant :=
  fun _ _ => step_inv

/-- Settles O13: the model's own reset state is one of those R260 allows, and each of these meets the invariant. -/
theorem resetMeetsTheInvariant : Obligations.ResetMeetsTheInvariant :=
  ⟨reset_isReset.inv, reset_isReset, fun _ => IsReset.inv, fun _ _ _ _ _ _ => rfl⟩

/-- Settles O15: the invariant holds at reset and so along the run; an aligned `pc` passes the fetch's first check. -/
theorem pcStaysAlignedAlongEveryRun : Obligations.PcStaysAlignedAlongEveryRun := by
  intro s t hreset hrun
  have hpc := (hrun.inv hreset.inv).pc
  exact ⟨hpc, fetch_ne_misaligned hpc⟩

/-- Settles O20: the effects that move `pc` elsewhere are those of branches and jumps. -/
theorem onlyControlInstructionsRedirectPc : Obligations.OnlyControlInstructionsRedirectPc :=
  fun _ _ _ hc hs h => (effect_of_exec h).pc_of_not_control hc hs

/-- Settles O21: the six effects write no register but `rd`, and a write to an unnamed register commutes with the
instruction. -/
theorem unnamedRegistersAreNeitherReadNorWritten : Obligations.UnnamedRegistersAreNeitherReadNorWritten := by
  intro i s t r h hrd
  refine ⟨(effect_of_exec h).x_of_rd_ne hrd, fun hr v => ?_⟩
  rw [exec_setX s v hrd hr, h, thenSetX_next]

/-- Settles O22: `x0` has no storage, and the one register an instruction writes is then `x0`. -/
theorem writesToX0AreDiscarded : Obligations.WritesToX0AreDiscarded :=
  ⟨x_zero, fun _ _ _ h0 h => (effect_of_exec h).sameRegs_of_rd_zero h0⟩

end Sys2Proof.Machine
end

section
/-! PROOFS. The rules of 20_memory.md: what the fetch gives (R47) and that it gives the program as loaded (R57), what may
change memory (R40, R48), `MemRead` and `MemWrite` byte by byte (R42 to R46), and a load after a store (R54). -/

namespace Sys2Proof.Machine

/-! ### The fetch, check by check (R47) -/

section Fetch
variable {s : State}

theorem fetch_of_misaligned (h : s.pc.toNat % 4 ≠ 0) : s.fetch = .raises ⟨.instructionAddressMisaligned, s.pc⟩ := by
  rcases fetch_cases s with ⟨-, e⟩ | ⟨ha, -⟩ | ⟨ha, -⟩ | ⟨ha, -⟩
  · exact e
  all_goals exact absurd ha h

theorem fetch_of_not_permitted (ha : s.pc.toNat % 4 = 0) (h : ¬Permitted s .x s.pc 4) :
    s.fetch = .raises ⟨.instructionAccessFault, s.pc⟩ := by
  rcases fetch_cases s with ⟨hna, -⟩ | ⟨-, -, e⟩ | ⟨-, hp, -⟩ | ⟨-, hp, -⟩
  · exact absurd ha hna
  · exact e
  all_goals exact absurd hp h

theorem fetch_of_stored (ha : s.pc.toNat % 4 = 0) (hp : Permitted s .x s.pc 4)
    (hr : s.params.ifetchAfterStore = .refuse) (h : ∃ k < 4, (s.pc + BitVec.ofNat 32 k).toNat ∈ s.stored) :
    s.fetch = .refuses (.fetchAfterStore s.pc) := by
  rcases fetch_cases s with ⟨hna, -⟩ | ⟨-, hnp, -⟩ | ⟨-, -, -, -, e⟩ | ⟨-, -, hcoherent | hfresh, -⟩
  · exact absurd ha hna
  · exact absurd hp hnp
  · exact e
  · simp [hr] at hcoherent
  · simp [(fetchesStored_iff s).2 h] at hfresh

/-- A word fetched is the four bytes at `pc`, least significant first (R42). -/
theorem bytes_of_fetch_word {w : Word} (h : s.fetch = .word w) :
    w = s.byte (s.pc + 3#32) ++ s.byte (s.pc + 2#32) ++ s.byte (s.pc + 1#32) ++ s.byte s.pc := by
  rcases fetch_cases s with ⟨-, e⟩ | ⟨-, -, e⟩ | ⟨-, -, -, -, e⟩ | ⟨-, -, -, e⟩
  case inr.inr.inr =>
    obtain rfl : s.mem.readLE s.pc 4 = w := by simpa [e] using h
    exact readLE_four s.mem s.pc
  all_goals simp [e] at h

/-- Under `IFETCH_AFTER_STORE = refuse` no byte of a word fetched has been written by a store (R47 step 3). -/
theorem not_mem_stored_of_fetch_word {w : Word} (hr : s.params.ifetchAfterStore = .refuse) (h : s.fetch = .word w) :
    ∀ k < 4, (s.pc + BitVec.ofNat 32 k).toNat ∉ s.stored := by
  intro k hk hmem
  rcases fetch_cases s with ⟨-, e⟩ | ⟨-, -, e⟩ | ⟨-, -, -, -, e⟩ | ⟨-, -, hcoherent | hfresh, -⟩
  case inr.inr.inr.inl => simp [hr] at hcoherent
  case inr.inr.inr.inr => simp [(fetchesStored_iff s).2 ⟨k, hk, hmem⟩] at hfresh
  all_goals simp [e] at h

theorem step_of_fetch_raises {h : Handover} (hh : s.handover = none) (hf : s.fetch = .raises h) :
    step s = raise h s := by
  simp [step, hh, hf]

theorem step_of_fetch_refuses {r : Refusal} (hh : s.handover = none) (hf : s.fetch = .refuses r) :
    step s = .refused r := by
  simp [step, hh, hf]

/-- A raise by the fetch is the whole step: the hand-over, nothing changed (60_exceptions.md R226). -/
theorem handsOver_of_fetch_raises {h : Handover} (hh : s.handover = none) (hf : s.fetch = .raises h) :
    ∃ t, step s = .next t ∧ HandsOver s t h := by
  rw [step_of_fetch_raises hh hf]
  exact raise_handsOver h s

end Fetch

/-! ### The program as loaded (R57) -/

/-- A byte outside the record has not changed, and was outside the record before. -/
theorem AsLoaded.of_keepsRecord {init : Memory} {s t : State} (hs : AsLoaded init s) (h : KeepsRecord s t) :
    AsLoaded init t := by
  intro a hnot
  have hsame : t.byte a = s.byte a := by
    by_contra hne
    exact hnot (h.records a hne)
  rw [hsame]
  exact hs a fun hmem => hnot (h.grows _ hmem)

theorem AsLoaded.of_step {init : Memory} {s t : State} (hs : AsLoaded init s) (h : step s = .next t) :
    AsLoaded init t :=
  hs.of_keepsRecord (step_keepsRecord h)

/-- Under `IFETCH_AFTER_STORE = refuse` the four bytes fetched are outside the record, so they stand as loaded. -/
theorem AsLoaded.fetch_word {init : Memory} {s : State} {w : Word} (hs : AsLoaded init s)
    (hr : s.params.ifetchAfterStore = .refuse) (h : s.fetch = .word w) :
    w = init.read (s.pc + 3#32).toNat ++ init.read (s.pc + 2#32).toNat ++ init.read (s.pc + 1#32).toNat ++
      init.read s.pc.toNat := by
  have hbyte (k : Nat) (hk : k < 4) : s.byte (s.pc + BitVec.ofNat 32 k) = init.read (s.pc + BitVec.ofNat 32 k).toNat :=
    hs _ (not_mem_stored_of_fetch_word hr h k hk)
  have h0 : s.byte s.pc = init.read s.pc.toNat := by simpa using hbyte 0 (by decide)
  rw [bytes_of_fetch_word h, hbyte 3 (by decide), hbyte 2 (by decide), hbyte 1 (by decide), h0]

/-- Along a run the bytes outside the record stand as loaded, and the parameters, `IFETCH_AFTER_STORE` among them, are
those of its start. -/
theorem Reaches.asLoaded {init : Memory} {s t : State} (h : Reaches s t) (hs : AsLoaded init s) :
    AsLoaded init t ∧ t.params = s.params :=
  h.keeps (P := fun u => AsLoaded init u ∧ u.params = s.params) ⟨hs, rfl⟩ fun _ _ ⟨hu, hp⟩ hstep =>
    ⟨hu.of_step hstep, (step_keepsRecord hstep).params.trans hp⟩

/-- At the start of a run the memory itself is the program as loaded. -/
theorem asLoaded_mem (s : State) : AsLoaded s.mem s := fun _ _ => rfl

/-! ### Which instructions change memory (R40, R48) -/

/-- Of the six effects of an instruction only a store's changes a byte or the record. -/
theorem Effect.sameMemory_of_not_store {i : Instr} {s t : State} (e : Effect i s t) (hi : i.isStore = false) :
    SameBytes s t ∧ t.stored = s.stored := by
  cases e with
  | raises h => exact ⟨fun _ => rfl, rfl⟩
  | writes rd v => exact ⟨fun a => by simp, by simp⟩
  | stores ea n v hs => simp [hi] at hs
  | branches a => exact ⟨fun _ => rfl, rfl⟩
  | jumps rd a => exact ⟨fun a => by simp, by simp⟩
  | falls => exact ⟨fun _ => rfl, rfl⟩

/-! ### Reading part of what was written (R42) -/

/-- Two `8n`-bit values with the same bytes are equal. -/
theorem eq_of_bytes_eq {n : Nat} {u v : BitVec (8 * n)}
    (h : ∀ i < n, u.extractLsb' (8 * i) 8 = v.extractLsb' (8 * i) 8) : u = v := by
  apply BitVec.eq_of_getLsbD_eq
  intro k hk
  have hbit := congrArg (fun b => b.getLsbD (k % 8)) (h (k / 8) (by omega))
  simpa [Nat.div_add_mod, Nat.mod_lt] using hbit

/-- A byte of a narrower part of a value is a byte of the value. -/
theorem extractLsb'_byte_of_part {n : Nat} (v : BitVec (8 * n)) {k j : Nat} (hj : j < k) (i : Nat) :
    (v.extractLsb' (8 * i) (8 * k)).extractLsb' (8 * j) 8 = v.extractLsb' (8 * (i + j)) 8 := by
  apply BitVec.eq_of_getLsbD_eq
  intro b hb
  have hin : 8 * j + b < 8 * k := by omega
  simp [hb, hin, Nat.mul_add, Nat.add_assoc]

/-- After a write of `n` bytes, a read of `k` of them from byte `i` on gives that part of the value. -/
theorem readLE_writeLE_part (m : Memory) (a : Word) {n i k : Nat} (v : BitVec (8 * n)) (h : i + k ≤ n)
    (hn : n ≤ 2 ^ 32) : (m.writeLE a n v).readLE (a + BitVec.ofNat 32 i) k = v.extractLsb' (8 * i) (8 * k) := by
  apply eq_of_bytes_eq
  intro j hj
  have haddr : a + BitVec.ofNat 32 i + BitVec.ofNat 32 j = a + BitVec.ofNat 32 (i + j) := by
    rw [BitVec.add_assoc, BitVec.ofNat_add]
  rw [readLE_byte _ _ _ _ hj, haddr, read_writeLE_inside m a n v (i + j) (by omega) hn,
    extractLsb'_byte_of_part v hj]

/-! ### Effective addresses (R45) -/

/-- The sum of a word and a sign-extended immediate is their integer sum modulo 2^32. -/
theorem toNat_add_signExtend (a : Word) (imm : BitVec 12) :
    ((a + imm.signExtend 32).toNat : Int) = (a.toNat + imm.toInt) % 2 ^ 32 := by
  rw [BitVec.signExtend, BitVec.toNat_add, BitVec.toNat_ofInt]
  omega

/-! ### A load after a store (R54; 41_loads_stores.md R131 to R138) -/

/-- A store that does not raise passed the alignment check and wrote its bytes. -/
theorem storeFrom_completes {n : Nat} {v : BitVec (8 * n)} {ea : Word} {s t : State}
    (h : storeFrom n v ea s = .next t) (hh : t.handover = none) :
    AlignmentAllows s ea n ∧ t = (s.storeBytes ea n v).advance := by
  rcases storeFrom_cases n v ea s with ⟨-, e⟩ | ⟨-, -, e⟩ | ⟨hal, -, e⟩
  all_goals cases e ▸ h
  · simp at hh
  · simp at hh
  · exact ⟨(alignmentAllows_iff ..).2 hal, rfl⟩

/-- The three stores, each the low `n` bytes of `x[rs2]` to the address `x[rs1] + imm` (41_loads_stores.md R136 to R138). -/
theorem exec_store_eq (rs2 rs1 : Reg) (imm : BitVec 12) (s : State) :
    ∀ p ∈ [(Instr.sb rs2 rs1 imm, 1), (.sh rs2 rs1 imm, 2), (.sw rs2 rs1 imm, 4)],
      exec p.1 s = storeFrom p.2 ((s.x rs2).extractLsb' 0 (8 * p.2)) (s.storeAddr rs1 imm) s := by
  have hword : (s.x rs2).extractLsb' 0 (8 * 4) = s.x rs2 := BitVec.extractLsb'_eq_self
  rw [List.forall_mem_cons, List.forall_mem_cons, List.forall_mem_singleton, hword]
  exact ⟨rfl, rfl, rfl⟩

/-- A load that passes its checks completes with the extended value of the bytes it reads. -/
theorem completes_of_loadInto {i : Instr} {n : Nat} {ext : BitVec (8 * n) → Word} {rd : Reg} {ea v : Word} {s : State}
    (hi : exec i s = loadInto n ext rd ea s) (ha : AlignmentAllows s ea n) (hp : Permitted s .r ea n)
    (hv : ext (s.mem.readLE ea n) = v) : Completes i s rd v := by
  rw [Completes, hi, ← hv]
  rcases loadInto_cases n ext rd ea s with ⟨ht, -⟩ | ⟨-, hnp, -⟩ | ⟨-, -, e⟩
  · simp [(alignmentAllows_iff ..).1 ha] at ht
  · exact absurd hp hnp
  · rw [e]
    exact writeBack_spec rd _ s

section Loads
variable {s : State} {n : Nat} {ea : Word} {rd : Reg}

/-- The signed and the unsigned load `i`, `j` of the `n` bytes `v` complete with `v` sign- and zero-extended. -/
theorem extendingLoads_complete {i j : Instr} {v : BitVec (8 * n)}
    (hi : exec i s = loadInto n (BitVec.signExtend 32) rd ea s)
    (hj : exec j s = loadInto n (BitVec.setWidth 32) rd ea s) (ha : AlignmentAllows s ea n) (hp : Permitted s .r ea n)
    (hread : s.mem.readLE ea n = v) :
    Completes i s rd (BitVec.ofInt 32 v.toInt) ∧ Completes j s rd (BitVec.ofNat 32 v.toNat) := by
  constructor
  · exact completes_of_loadInto hi ha hp (congrArg (BitVec.signExtend 32) hread)
  · exact completes_of_loadInto hj ha hp (by rw [hread, BitVec.ofNat_toNat])

/-- `lb` and `lbu` of a readable byte: a byte access is never misaligned (R46). -/
theorem byteLoads_complete {base : Reg} {imm : BitVec 12} {b : Byte} (hp : Permitted s .r (s.loadAddr base imm) 1)
    (hb : s.byte (s.loadAddr base imm) = b) :
    Completes (.lb rd base imm) s rd (BitVec.ofInt 32 b.toInt) ∧
      Completes (.lbu rd base imm) s rd (BitVec.ofNat 32 b.toNat) :=
  extendingLoads_complete (n := 1) rfl rfl (.inl (Nat.mod_one _)) hp ((readLE_one ..).trans hb)

/-- `lh` and `lhu` of a half-word that passes the checks. -/
theorem halfLoads_complete {base : Reg} {imm : BitVec 12} {v : BitVec 16} (hea : s.loadAddr base imm = ea)
    (ha : AlignmentAllows s ea 2) (hp : Permitted s .r ea 2) (hread : s.mem.readLE ea 2 = v) :
    Completes (.lh rd base imm) s rd (BitVec.ofInt 32 v.toInt) ∧
      Completes (.lhu rd base imm) s rd (BitVec.ofNat 32 v.toNat) := by
  subst hea
  exact extendingLoads_complete (n := 2) rfl rfl ha hp hread

/-- `lw` of a word that passes the checks. -/
theorem wordLoad_completes {base : Reg} {imm : BitVec 12} {v : Word} (hea : s.loadAddr base imm = ea)
    (ha : AlignmentAllows s ea 4) (hp : Permitted s .r ea 4) (hread : s.mem.readLE ea 4 = v) :
    Completes (.lw rd base imm) s rd v := by
  subst hea
  exact completes_of_loadInto (n := 4) rfl ha hp hread

end Loads

/-- A store of the low `n` bytes of a word leaves byte `k` of the word at `ea + k`. -/
theorem storeBytes_low_byte (s : State) (ea v : Word) {n k : Nat} (hk : k < n) (hn : n ≤ 2 ^ 32) :
    (s.storeBytes ea n (v.extractLsb' 0 (8 * n))).byte (ea + BitVec.ofNat 32 k) = v.extractLsb' (8 * k) 8 := by
  have hpart := extractLsb'_byte_of_part (n := 4) v hk 0
  rw [Nat.zero_add] at hpart
  exact (storeBytes_byte_inside _ _ _ _ _ hk hn).trans hpart

/-! ### The obligations of 20_memory.md -/

/-- Settles O58: a byte a step changes is recorded and the record only grows, so a byte outside the record is as it was;
the bytes of a word fetched are outside the record. -/
theorem everyStepKeepsTheProgramAsLoaded : Obligations.EveryStepKeepsTheProgramAsLoaded :=
  fun _ _ hs => ⟨fun _ => hs.of_step, fun _ => hs.fetch_word⟩

/-- Settles O9: the checks of the fetch one after another, then the four bytes of its word. -/
theorem fetchChecksThenReadsLittleEndian : Obligations.FetchChecksThenReadsLittleEndian := by
  intro s stale refuses
  refine ⟨fun ha hh => handsOver_of_fetch_raises hh (fetch_of_misaligned ha),
    fun ha hp hh => handsOver_of_fetch_raises hh (fetch_of_not_permitted ha hp),
    fun ha hp ⟨hr, hstale⟩ hh => step_of_fetch_refuses hh (fetch_of_stored ha hp hr hstale), fun ha hp hnot => ?_⟩
  have hfetch : s.fetch = .word (s.mem.readLE s.pc 4) := by
    apply fetch_eq_word ha hp
    cases hr : s.params.ifetchAfterStore with
    | coherent => exact .inl rfl
    | refuse => exact .inr fun k hk hmem => hnot ⟨hr, k, hk, hmem⟩
  rw [hfetch, bytes_of_fetch_word hfetch]

/-- Settles O19: of the six effects of an instruction only a store's touches memory or the record. -/
theorem onlyStoresChangeMemory : Obligations.OnlyStoresChangeMemory :=
  fun _ _ _ hi h => (effect_of_exec h).sameMemory_of_not_store hi

/-- Settles O24: the memory at reset is the program as loaded, which every step keeps, and the fetch gives it. -/
theorem aFetchedWordIsTheWordLoadedBeforeReset : Obligations.AFetchedWordIsTheWordLoadedBeforeReset := by
  intro s t w _ hr hrun hfetch
  obtain ⟨hloaded, hparams⟩ := hrun.asLoaded (asLoaded_mem s)
  exact hloaded.fetch_word (hparams ▸ hr) hfetch

/-- Settles O25: each read, and the fetch, is a part of what was written. -/
theorem memoryIsLittleEndian : Obligations.MemoryIsLittleEndian := by
  intro m a v m'
  have hword : m'.readLE a 4 = v := readLE_writeLE m a 4 v (by decide)
  refine ⟨hword, fun i hi => readLE_writeLE_part (n := 4) (k := 1) m a v (by omega) (by decide),
    fun i hi => readLE_writeLE_part (n := 4) (k := 2) m a v (by omega) (by decide), fun s w hmem hpc hfetch => ?_⟩
  rw [bytes_of_fetch_word hfetch, ← hword, ← hmem, ← hpc]
  exact (readLE_four s.mem s.pc).symm

/-- Settles O26: the cases of `MemRead`, and the bytes of a little-endian read. -/
theorem memReadChecksThenReadsEveryByte : Obligations.MemReadChecksThenReadsEveryByte := by
  intro s a n _
  rw [alignmentAllows_iff]
  rcases memRead_cases s a n with ⟨ht, e⟩ | ⟨ht, hp, e⟩ | ⟨ht, hp, e⟩
  · simp [ht, e]
  · simp [ht, hp, e]
  · exact ⟨fun h => absurd ht h, fun _ h => absurd hp h, fun _ _ => ⟨_, e, readLE_byte s.mem a n⟩⟩

/-- Settles O27: the cases of `MemWrite`, and the bytes inside and outside a little-endian write. -/
theorem memWriteChecksThenReplacesExactlyItsBytes : Obligations.MemWriteChecksThenReplacesExactlyItsBytes := by
  intro s a n v hn
  have hle : n ≤ 2 ^ 32 := by
    simp only [List.mem_cons, List.not_mem_nil, or_false] at hn
    omega
  rw [alignmentAllows_iff]
  rcases memWrite_cases s a n v with ⟨ht, e⟩ | ⟨ht, hp, e⟩ | ⟨ht, hp, e⟩
  · simp [ht, e]
  · simp [ht, hp, e]
  · refine ⟨fun h => absurd ht h, fun _ h => absurd hp h, fun _ _ => ⟨_, e, ?_, ?_, fun _ => rfl, rfl⟩⟩
    · exact fun i hi => storeBytes_byte_inside s a n v i hi hle
    · exact storeBytes_byte_outside s a n v

/-- Settles O28: both addresses are the register plus the sign-extended immediate. -/
theorem effectiveAddressesWrap : Obligations.EffectiveAddressesWrap :=
  fun s rs1 imm => ⟨toNat_add_signExtend (s.x rs1) imm, toNat_add_signExtend (s.x rs1) imm⟩

/-- Settles O29: a store that completes leaves its bytes of `x[rs2]` at its address and the other bytes alone, and a load
that passes its checks completes with the bytes that stand at its address. -/
theorem aLoadReturnsTheLatestStore : Obligations.ALoadReturnsTheLatestStore := by
  intro s t rs2 rs1 rd base imm imm' _ hh ea la
  have hstore (p) (hp : p ∈ [(Instr.sb rs2 rs1 imm, 1), (.sh rs2 rs1 imm, 2), (.sw rs2 rs1 imm, 4)])
      (hexec : exec p.1 s = .next t) := storeFrom_completes ((exec_store_eq rs2 rs1 imm s p hp).symm.trans hexec) hh
  refine ⟨fun hexec hla hp => ?_, fun hexec hla hp => ?_, fun p hmem hexec hp => ?_⟩
  · obtain ⟨hal, rfl⟩ := hstore (.sw rs2 rs1 imm, 4) (by simp) hexec
    refine wordLoad_completes hla hal hp ?_
    exact (readLE_writeLE s.mem ea 4 _ (by decide)).trans BitVec.extractLsb'_eq_self
  · obtain ⟨hal, rfl⟩ := hstore (.sh rs2 rs1 imm, 2) (by simp) hexec
    have hlow : ((s.x rs2).extractLsb' 0 16).toNat = (s.x rs2).toNat % 2 ^ 16 := BitVec.extractLsb'_toNat ..
    rw [← hlow]
    exact halfLoads_complete hla hal hp (readLE_writeLE s.mem ea 2 _ (by decide))
  · obtain ⟨-, rfl⟩ := hstore p hmem hexec
    have hle : p.2 ≤ 2 ^ 32 := by
      simp only [List.mem_cons, List.not_mem_nil, or_false] at hmem
      rcases hmem with rfl | rfl | rfl <;> simp
    refine ⟨fun k hk hla => byteLoads_complete hp ?_, fun hout => byteLoads_complete hp ?_⟩
    · exact (congrArg _ hla).trans (storeBytes_low_byte s ea (s.x rs2) hk hle)
    · exact storeBytes_byte_outside s ea p.2 _ la hout

end Sys2Proof.Machine
end

section
/-! PROOFS. The decoder of 30_encoding.md, opcode by opcode (R87 to R89): what it gives for each listed opcode, that an
instruction it gives encodes to the word (section 2), and how it agrees with the opcode map. -/

namespace Sys2Proof

/-! ### The decoder at each opcode of R87 -/

section Opcodes
variable (c : Params) {w : Word}

theorem decodeWord_op (h : opcodeOf w = 0b0110011#7) :
    decodeWord c w = decodeOp c (funct7Of w) (funct3Of w) (rdOf w) (rs1Of w) (rs2Of w) := by
  simp [decodeWord, h]

theorem decodeWord_opImm (h : opcodeOf w = 0b0010011#7) :
    decodeWord c w = decodeOpImm (funct7Of w) (funct3Of w) (rdOf w) (rs1Of w) (immIOf w) (rs2Of w) := by
  simp [decodeWord, h]

theorem decodeWord_load (h : opcodeOf w = 0b0000011#7) :
    decodeWord c w = decodeLoad (funct3Of w) (rdOf w) (rs1Of w) (immIOf w) := by
  simp [decodeWord, h]

theorem decodeWord_store (h : opcodeOf w = 0b0100011#7) :
    decodeWord c w = decodeStore (funct3Of w) (rs2Of w) (rs1Of w) (immSOf w) := by
  simp [decodeWord, h]

theorem decodeWord_branch (h : opcodeOf w = 0b1100011#7) :
    decodeWord c w = decodeBranch (funct3Of w) (rs1Of w) (rs2Of w) (immBOf w) := by
  simp [decodeWord, h]

theorem decodeWord_jal (h : opcodeOf w = 0b1101111#7) : decodeWord c w = .ok (.jal (rdOf w) (immJOf w)) := by
  simp [decodeWord, h]

theorem decodeWord_jalr (h : opcodeOf w = 0b1100111#7) (h3 : funct3Of w = 0b000#3) :
    decodeWord c w = .ok (.jalr (rdOf w) (rs1Of w) (immIOf w)) := by
  simp [decodeWord, h, h3]

theorem decodeWord_jalr_error (h : opcodeOf w = 0b1100111#7) (h3 : funct3Of w ≠ 0b000#3) :
    decodeWord c w = .error .unlistedFunct3 := by
  simp [decodeWord, h, h3]

theorem decodeWord_auipc (h : opcodeOf w = 0b0010111#7) : decodeWord c w = .ok (.auipc (rdOf w) (immUOf w)) := by
  simp [decodeWord, h]

theorem decodeWord_lui (h : opcodeOf w = 0b0110111#7) : decodeWord c w = .ok (.lui (rdOf w) (immUOf w)) := by
  simp [decodeWord, h]

theorem decodeWord_system (h : opcodeOf w = 0b1110011#7) : decodeWord c w = decodeSystem c w := by
  simp [decodeWord, h]

/-- The ten opcode values of R87, as R89 (h) lists them. -/
def listedOpcodes : List (BitVec 7) :=
  [0b0000011#7, 0b0010011#7, 0b0010111#7, 0b0100011#7, 0b0110011#7, 0b0110111#7, 0b1100011#7, 0b1100111#7, 0b1101111#7,
    0b1110011#7]

theorem decodeWord_of_opcode_unlisted (h : opcodeOf w ∉ listedOpcodes) :
    decodeWord c w = .error .unlistedOpcode := by
  simp only [listedOpcodes, List.mem_cons, List.not_mem_nil, or_false, not_or] at h
  simp [decodeWord, h]

end Opcodes

/-! ### The words of `ecall` and `ebreak` (43_other.md R175) -/

theorem ebreakWord_ne_ecallWord (c : Params) : ebreakWord c ≠ ecallWord c := by
  unfold ebreakWord ecallWord
  cases c.sysImmMap <;> decide

theorem opcodeOf_ecallWord (c : Params) : opcodeOf (ecallWord c) = 0b1110011#7 := by
  unfold ecallWord
  cases c.sysImmMap <;> rfl

theorem opcodeOf_ebreakWord (c : Params) : opcodeOf (ebreakWord c) = 0b1110011#7 := by
  unfold ebreakWord
  cases c.sysImmMap <;> rfl

theorem decodeWord_ecallWord (c : Params) : decodeWord c (ecallWord c) = .ok .ecall := by
  simp [decodeWord_system c (opcodeOf_ecallWord c), decodeSystem]

theorem decodeWord_ebreakWord (c : Params) : decodeWord c (ebreakWord c) = .ok .ebreak := by
  simp [decodeWord_system c (opcodeOf_ebreakWord c), decodeSystem, ebreakWord_ne_ecallWord c]

/-! ### Evenness of an offset (R83, R85, R86) -/

theorem offsetEven_iff {n : Nat} (off : BitVec n) : offsetEven off = true ↔ off.toNat % 2 = 0 := by
  simp [offsetEven, BitVec.getLsbD, Nat.testBit_zero]

theorem offsetEven_immBOf (w : Word) : offsetEven (immBOf w) = true := by
  simp only [offsetEven, immBOf_even, beq_self_eq_true]

theorem offsetEven_immJOf (w : Word) : offsetEven (immJOf w) = true := by
  simp only [offsetEven, immJOf_even, beq_self_eq_true]

/-! ### What decodes is an encoding (sections 2 to 4)

Each part of the decoder gives a well-formed instruction whose encoding is the layout of the fields it was given. -/

section Encoding
variable {c : Params} {w : Word} {i : Instr}

theorem funct3_cases (f3 : BitVec 3) :
    f3 = 0#3 ∨ f3 = 1#3 ∨ f3 = 2#3 ∨ f3 = 3#3 ∨ f3 = 4#3 ∨ f3 = 5#3 ∨ f3 = 6#3 ∨ f3 = 7#3 := by
  revert f3
  decide

/-- `funct7 = 0000000` lists every `funct3`; the other two values of `funct7` list three words. -/
theorem encode_of_decodeOp {f7 : BitVec 7} {f3 : BitVec 3} {rd rs1 rs2 : Reg}
    (h : decodeOp c f7 f3 rd rs1 rs2 = .ok i) (hw : encR f7 rs2 rs1 f3 rd 0b0110011#7 = w) :
    i.wellFormed c = true ∧ encode c i = w := by
  by_cases h0 : f7 = 0b0000000#7
  · subst f7
    obtain rfl | rfl | rfl | rfl | rfl | rfl | rfl | rfl := funct3_cases f3
    all_goals
      cases h
      exact ⟨rfl, hw⟩
  · simp only [decodeOp, h0, if_false] at h
    split_ifs at h with h32 hsub hsra h1 hmul hext <;> cases h
    all_goals subst f7 f3
    · exact ⟨rfl, hw⟩
    · exact ⟨rfl, hw⟩
    · exact ⟨hext, hw⟩

/-- The shifts, at `funct3` 001 and 101, have the R layout with their amount as `rs2` (R74); the others the I layout. -/
theorem encode_of_decodeOpImm {f7 : BitVec 7} {f3 : BitVec 3} {rd rs1 : Reg} {imm : BitVec 12} {shamt : BitVec 5}
    (h : decodeOpImm f7 f3 rd rs1 imm shamt = .ok i) (hI : encI imm rs1 f3 rd 0b0010011#7 = w)
    (hR : encR f7 shamt rs1 f3 rd 0b0010011#7 = w) : i.wellFormed c = true ∧ encode c i = w := by
  obtain rfl | rfl | rfl | rfl | rfl | rfl | rfl | rfl := funct3_cases f3
  · cases h
    exact ⟨rfl, hI⟩
  · by_cases h0 : f7 = 0b0000000#7
    · subst f7
      cases h
      exact ⟨rfl, hR⟩
    · simp [decodeOpImm, h0] at h
  iterate 3
    · cases h
      exact ⟨rfl, hI⟩
  · by_cases h0 : f7 = 0b0000000#7
    · subst f7
      cases h
      exact ⟨rfl, hR⟩
    by_cases h32 : f7 = 0b0100000#7
    · subst f7
      cases h
      exact ⟨rfl, hR⟩
    · simp [decodeOpImm, h0, h32] at h
  iterate 2
    · cases h
      exact ⟨rfl, hI⟩

theorem encode_of_decodeLoad {f3 : BitVec 3} {rd rs1 : Reg} {imm : BitVec 12}
    (h : decodeLoad f3 rd rs1 imm = .ok i) (hw : encI imm rs1 f3 rd 0b0000011#7 = w) :
    i.wellFormed c = true ∧ encode c i = w := by
  unfold decodeLoad at h
  split_ifs at h <;> cases h
  all_goals
    subst f3
    exact ⟨rfl, hw⟩

theorem encode_of_decodeStore {f3 : BitVec 3} {rs2 rs1 : Reg} {imm : BitVec 12}
    (h : decodeStore f3 rs2 rs1 imm = .ok i) (hw : encS imm rs2 rs1 f3 0b0100011#7 = w) :
    i.wellFormed c = true ∧ encode c i = w := by
  unfold decodeStore at h
  split_ifs at h <;> cases h
  all_goals
    subst f3
    exact ⟨rfl, hw⟩

theorem encode_of_decodeBranch {f3 : BitVec 3} {rs1 rs2 : Reg} {off : BitVec 13}
    (h : decodeBranch f3 rs1 rs2 off = .ok i) (hw : encB off rs2 rs1 f3 0b1100011#7 = w)
    (heven : offsetEven off = true) : i.wellFormed c = true ∧ encode c i = w := by
  unfold decodeBranch at h
  split_ifs at h <;> cases h
  all_goals
    subst f3
    exact ⟨heven, hw⟩

theorem encode_of_decodeSystem (h : decodeSystem c w = .ok i) : i.wellFormed c = true ∧ encode c i = w := by
  unfold decodeSystem at h
  split_ifs at h with hecall hebreak <;> cases h
  · exact ⟨rfl, hecall.symm⟩
  · exact ⟨rfl, hebreak.symm⟩

/-- A word is every layout of its own fields, so each opcode's part of the decoder is left with its own layout. -/
theorem encode_of_decodeWord (h : decodeWord c w = .ok i) : i.wellFormed c = true ∧ encode c i = w := by
  by_cases hop : opcodeOf w ∈ listedOpcodes
  · simp only [listedOpcodes, List.mem_cons, List.not_mem_nil, or_false] at hop
    rcases hop with hop | hop | hop | hop | hop | hop | hop | hop | hop | hop
    · exact encode_of_decodeLoad (decodeWord_load c hop ▸ h) (hop ▸ encI_fields w)
    · exact encode_of_decodeOpImm (decodeWord_opImm c hop ▸ h) (hop ▸ encI_fields w) (hop ▸ encR_fields w)
    · cases decodeWord_auipc c hop ▸ h
      have hw := encU_fields w
      rw [hop] at hw
      exact ⟨rfl, hw⟩
    · exact encode_of_decodeStore (decodeWord_store c hop ▸ h) (hop ▸ encS_fields w)
    · exact encode_of_decodeOp (decodeWord_op c hop ▸ h) (hop ▸ encR_fields w)
    · cases decodeWord_lui c hop ▸ h
      have hw := encU_fields w
      rw [hop] at hw
      exact ⟨rfl, hw⟩
    · exact encode_of_decodeBranch (decodeWord_branch c hop ▸ h) (hop ▸ encB_fields w) (offsetEven_immBOf w)
    · by_cases h3 : funct3Of w = 0b000#3
      · cases decodeWord_jalr c hop h3 ▸ h
        have hw := encI_fields w
        rw [hop, h3] at hw
        exact ⟨rfl, hw⟩
      · simp [decodeWord_jalr_error c hop h3] at h
    · cases decodeWord_jal c hop ▸ h
      have hw := encJ_fields w
      rw [hop] at hw
      exact ⟨offsetEven_immJOf w, hw⟩
    · exact encode_of_decodeSystem (decodeWord_system c hop ▸ h)
  · simp [decodeWord_of_opcode_unlisted c hop] at h

end Encoding

/-! ### A row that covers a word makes it decode (R87) -/

section Rows
variable {c : Params} {w : Word}

theorem covers_iff (row : OpcodeRow) (w : Word) : row.covers w = true ↔ w &&& row.mask = row.pattern := by
  simp [OpcodeRow.covers]

/-- The word decodes to an instruction of the row. -/
def DecodesAs (c : Params) (w : Word) (row : OpcodeRow) : Prop :=
  ∃ i, decodeWord c w = .ok i ∧ i.mnemonic = row.mnemonic

section Masks
variable {p : Word}

theorem decodeWord_of_mask_op (h : w &&& 0xFE00707F#32 = p) (hop : opcodeOf p = 0b0110011#7) :
    decodeWord c w = decodeOp c (funct7Of p) (funct3Of p) (rdOf w) (rs1Of w) (rs2Of w) := by
  obtain ⟨ho, h3, h7⟩ := fields_of_mask_funct7 h
  rw [decodeWord_op c (ho.trans hop), h3, h7]

theorem decodeWord_of_mask_opImm (h : w &&& 0x0000707F#32 = p) (hop : opcodeOf p = 0b0010011#7) :
    decodeWord c w = decodeOpImm (funct7Of w) (funct3Of p) (rdOf w) (rs1Of w) (immIOf w) (rs2Of w) := by
  obtain ⟨ho, h3⟩ := fields_of_mask_funct3 h
  rw [decodeWord_opImm c (ho.trans hop), h3]

theorem decodeWord_of_mask_shiftImm (h : w &&& 0xFE00707F#32 = p) (hop : opcodeOf p = 0b0010011#7) :
    decodeWord c w = decodeOpImm (funct7Of p) (funct3Of p) (rdOf w) (rs1Of w) (immIOf w) (rs2Of w) := by
  obtain ⟨ho, h3, h7⟩ := fields_of_mask_funct7 h
  rw [decodeWord_opImm c (ho.trans hop), h3, h7]

theorem decodeWord_of_mask_load (h : w &&& 0x0000707F#32 = p) (hop : opcodeOf p = 0b0000011#7) :
    decodeWord c w = decodeLoad (funct3Of p) (rdOf w) (rs1Of w) (immIOf w) := by
  obtain ⟨ho, h3⟩ := fields_of_mask_funct3 h
  rw [decodeWord_load c (ho.trans hop), h3]

theorem decodeWord_of_mask_store (h : w &&& 0x0000707F#32 = p) (hop : opcodeOf p = 0b0100011#7) :
    decodeWord c w = decodeStore (funct3Of p) (rs2Of w) (rs1Of w) (immSOf w) := by
  obtain ⟨ho, h3⟩ := fields_of_mask_funct3 h
  rw [decodeWord_store c (ho.trans hop), h3]

theorem decodeWord_of_mask_branch (h : w &&& 0x0000707F#32 = p) (hop : opcodeOf p = 0b1100011#7) :
    decodeWord c w = decodeBranch (funct3Of p) (rs1Of w) (rs2Of w) (immBOf w) := by
  obtain ⟨ho, h3⟩ := fields_of_mask_funct3 h
  rw [decodeWord_branch c (ho.trans hop), h3]

end Masks

variable {row : OpcodeRow}

theorem decodesAs_of_mem_rowsOp (hrow : row ∈ rowsOp) (h : row.covers w = true) : DecodesAs c w row := by
  rw [covers_iff] at h
  fin_cases hrow <;> exact ⟨_, decodeWord_of_mask_op h rfl, rfl⟩

theorem decodesAs_of_mem_rowsOpImm (hrow : row ∈ rowsOpImm) (h : row.covers w = true) : DecodesAs c w row := by
  rw [covers_iff] at h
  fin_cases hrow
  -- `addi andi ori xori`, the three shifts, `slti sltiu`
  iterate 4 exact ⟨_, decodeWord_of_mask_opImm h rfl, rfl⟩
  iterate 3 exact ⟨_, decodeWord_of_mask_shiftImm h rfl, rfl⟩
  iterate 2 exact ⟨_, decodeWord_of_mask_opImm h rfl, rfl⟩

theorem decodesAs_of_mem_rowsMemory (hrow : row ∈ rowsMemory) (h : row.covers w = true) : DecodesAs c w row := by
  rw [covers_iff] at h
  fin_cases hrow
  -- the five loads, the three stores
  iterate 5 exact ⟨_, decodeWord_of_mask_load h rfl, rfl⟩
  iterate 3 exact ⟨_, decodeWord_of_mask_store h rfl, rfl⟩

theorem decodesAs_of_mem_rowsControl (hrow : row ∈ rowsControl) (h : row.covers w = true) : DecodesAs c w row := by
  rw [covers_iff] at h
  fin_cases hrow
  -- the six branches, `jal`, `jalr`
  iterate 6 exact ⟨_, decodeWord_of_mask_branch h rfl, rfl⟩
  · exact ⟨_, decodeWord_jal c (fields_of_mask_opcode h), rfl⟩
  · obtain ⟨hop, h3⟩ := fields_of_mask_funct3 h
    exact ⟨_, decodeWord_jalr c hop h3, rfl⟩

theorem and_fullMask (w : Word) : w &&& 0xFFFFFFFF#32 = w := BitVec.and_allOnes

theorem decodesAs_of_mem_rowsOther (hrow : row ∈ rowsOther c) (h : row.covers w = true) : DecodesAs c w row := by
  rw [covers_iff] at h
  simp only [rowsOther, List.mem_cons, List.not_mem_nil, or_false] at hrow
  rcases hrow with rfl | rfl | rfl | rfl
  · exact ⟨_, decodeWord_auipc c (fields_of_mask_opcode h), rfl⟩
  · exact ⟨_, decodeWord_lui c (fields_of_mask_opcode h), rfl⟩
  · obtain rfl : w = ebreakWord c := (and_fullMask w).symm.trans h
    exact ⟨_, decodeWord_ebreakWord c, rfl⟩
  · obtain rfl : w = ecallWord c := (and_fullMask w).symm.trans h
    exact ⟨_, decodeWord_ecallWord c, rfl⟩

theorem decodesAs_of_mem_rowsMul (hrow : row ∈ rowsMul c) (h : row.covers w = true) : DecodesAs c w row := by
  rw [covers_iff] at h
  unfold rowsMul at hrow
  split_ifs at hrow with hmul
  · obtain rfl := List.mem_singleton.1 hrow
    exact ⟨_, (decodeWord_of_mask_op h rfl).trans (if_pos hmul), rfl⟩
  · cases hrow

theorem decodesAs_of_covers (hrow : row ∈ opcodeRows c) (h : row.covers w = true) : DecodesAs c w row := by
  simp only [opcodeRows, List.mem_append] at hrow
  rcases hrow with ((((hrow | hrow) | hrow) | hrow) | hrow) | hrow
  · exact decodesAs_of_mem_rowsOp hrow h
  · exact decodesAs_of_mem_rowsOpImm hrow h
  · exact decodesAs_of_mem_rowsMemory hrow h
  · exact decodesAs_of_mem_rowsControl hrow h
  · exact decodesAs_of_mem_rowsOther hrow h
  · exact decodesAs_of_mem_rowsMul hrow h

end Rows

/-! ### The row of an instruction, and that it covers the encoding (R87) -/

/-- The mask of R87 for the layout of the instruction. -/
def maskOf : Instr → Word
  | .add _ _ _ | .sub _ _ _ | .and _ _ _ | .or _ _ _ | .xor _ _ _ => 0xFE00707F#32
  | .sll _ _ _ | .srl _ _ _ | .sra _ _ _ | .slt _ _ _ | .sltu _ _ _ | .mul _ _ _ => 0xFE00707F#32
  | .slli _ _ _ | .srli _ _ _ | .srai _ _ _ => 0xFE00707F#32
  | .jal _ _ | .auipc _ _ | .lui _ _ => 0x0000007F#32
  | .ebreak | .ecall => 0xFFFFFFFF#32
  | .addi _ _ _ | .andi _ _ _ | .ori _ _ _ | .xori _ _ _ | .slti _ _ _ | .sltiu _ _ _ => 0x0000707F#32
  | .lb _ _ _ | .lbu _ _ _ | .lh _ _ _ | .lhu _ _ _ | .lw _ _ _ | .jalr _ _ _ => 0x0000707F#32
  | .sb _ _ _ | .sh _ _ _ | .sw _ _ _ => 0x0000707F#32
  | .beq _ _ _ | .bne _ _ _ | .blt _ _ _ | .bltu _ _ _ | .bge _ _ _ | .bgeu _ _ _ => 0x0000707F#32

/-- The row of an instruction: its mnemonic, its mask, and what the mask leaves of its encoding. -/
def rowOf (c : Params) (i : Instr) : OpcodeRow := ⟨i.mnemonic, encode c i &&& maskOf i, maskOf i⟩

theorem rowOf_covers_encode (c : Params) (i : Instr) : (rowOf c i).covers (encode c i) = true :=
  (covers_iff ..).2 rfl

theorem and_mask_opcode (w : Word) : w &&& 0x0000007F#32 = encR 0#7 0#5 0#5 0#3 0#5 (opcodeOf w) := by
  apply BitVec.eq_of_getLsbD_eq
  intro k hk
  simp only [encR, opcodeOf, BitVec.getLsbD_and, BitVec.getLsbD_append, BitVec.getLsbD_extractLsb']
  interval_cases k <;> simp

theorem and_mask_funct3 (w : Word) : w &&& 0x0000707F#32 = encR 0#7 0#5 0#5 (funct3Of w) 0#5 (opcodeOf w) := by
  apply BitVec.eq_of_getLsbD_eq
  intro k hk
  simp only [encR, opcodeOf, funct3Of, BitVec.getLsbD_and, BitVec.getLsbD_append, BitVec.getLsbD_extractLsb']
  interval_cases k <;> simp

theorem and_mask_funct7 (w : Word) : w &&& 0xFE00707F#32 = encR (funct7Of w) 0#5 0#5 (funct3Of w) 0#5 (opcodeOf w) := by
  apply BitVec.eq_of_getLsbD_eq
  intro k hk
  simp only [encR, opcodeOf, funct3Of, funct7Of, BitVec.getLsbD_and, BitVec.getLsbD_append, BitVec.getLsbD_extractLsb']
  interval_cases k <;> simp

/-- The mask leaves of the encoding its opcode, `funct3` and `funct7`, which make the pattern R87 lists. -/
theorem rowOf_mem_opcodeRows {c : Params} {i : Instr} (h : i.wellFormed c = true) : rowOf c i ∈ opcodeRows c := by
  simp only [opcodeRows, rowsOp, rowsOpImm, rowsMemory, rowsControl, rowsOther, rowsMul, List.mem_append, List.mem_cons,
    rowOf]
  cases i <;> simp only [encode, maskOf, and_mask_opcode, and_mask_funct3, and_mask_funct7, and_fullMask, opcodeOf_encR,
    funct3Of_encR, funct7Of_encR, opcodeOf_encI, funct3Of_encI, opcodeOf_encS, funct3Of_encS, opcodeOf_encB,
    funct3Of_encB, opcodeOf_encU, opcodeOf_encJ]
  case mul =>
    have hmul : c.extMul = true := h
    simp [hmul, Instr.mnemonic, encR]
  all_goals simp [Instr.mnemonic, encR]

/-! ### No two rows (R87) -/

theorem nodup_mnemonics (c : Params) : ((opcodeRows c).map OpcodeRow.mnemonic).Nodup := by
  simp only [opcodeRows, rowsOther, rowsMul, List.map_append, List.map]
  cases c.extMul <;> decide

/-- Two rows that cover the same word have the mnemonic of the instruction it decodes to. -/
theorem row_unique {c : Params} {w : Word} {row row' : OpcodeRow} (hrow : row ∈ opcodeRows c)
    (hrow' : row' ∈ opcodeRows c) (h : row.covers w = true) (h' : row'.covers w = true) : row = row' := by
  obtain ⟨i, hi, hm⟩ := decodesAs_of_covers hrow h
  obtain ⟨j, hj, hm'⟩ := decodesAs_of_covers hrow' h'
  cases hi.symm.trans hj
  exact List.inj_on_of_nodup_map (nodup_mnemonics c) hrow hrow' (hm.symm.trans hm')

/-! ### The classes of unlisted words (R89) -/

section Rejects
variable (c : Params)

/-- R89 (a). -/
theorem decodeOp_rejects {f7 : BitVec 7} {f3 : BitVec 3} (rd rs1 rs2 : Reg)
    (h : f7 ≠ 0b0000000#7 ∧ f7 ≠ 0b0100000#7 ∧ ¬(f7 = 0b0000001#7 ∧ c.extMul = true) ∨
      f7 = 0b0100000#7 ∧ f3 ≠ 0b000#3 ∧ f3 ≠ 0b101#3 ∨ f7 = 0b0000001#7 ∧ f3 ≠ 0b000#3) :
    ∃ e, decodeOp c f7 f3 rd rs1 rs2 = .error e := by
  rcases h with ⟨h0, h32, hmul⟩ | ⟨rfl, h0, h5⟩ | ⟨rfl, h0⟩
  · by_cases h1 : f7 = 0b0000001#7
    · have habsent : c.extMul = false := by simpa [h1] using hmul
      by_cases hf : f3 = 0b000#3 <;> simp [decodeOp, h1, hf, habsent]
    · simp [decodeOp, h0, h32, h1]
  · simp [decodeOp, h0, h5]
  · simp [decodeOp, h0]

/-- R89 (b): the shifts are the only rows of this opcode with a `funct7`. -/
theorem decodeOpImm_rejects_iff (f7 : BitVec 7) (f3 : BitVec 3) (rd rs1 : Reg) (imm : BitVec 12) (shamt : BitVec 5) :
    (f3 = 0b001#3 ∧ f7 ≠ 0b0000000#7 ∨ f3 = 0b101#3 ∧ f7 ≠ 0b0000000#7 ∧ f7 ≠ 0b0100000#7) ↔
      ∃ e, decodeOpImm f7 f3 rd rs1 imm shamt = .error e := by
  obtain rfl | rfl | rfl | rfl | rfl | rfl | rfl | rfl := funct3_cases f3
  · simp [decodeOpImm]
  · by_cases h0 : f7 = 0b0000000#7 <;> simp [decodeOpImm, h0]
  iterate 3
    · simp [decodeOpImm]
  · by_cases h0 : f7 = 0b0000000#7
    · simp [decodeOpImm, h0]
    · by_cases h32 : f7 = 0b0100000#7 <;> simp [decodeOpImm, h0, h32]
  iterate 2
    · simp [decodeOpImm]

/-- R89 (c). -/
theorem decodeLoad_rejects {f3 : BitVec 3} (rd rs1 : Reg) (imm : BitVec 12) (h : f3 ∈ [0b011#3, 0b110#3, 0b111#3]) :
    decodeLoad f3 rd rs1 imm = .error .unlistedFunct3 := by
  fin_cases h <;> rfl

/-- R89 (d). -/
theorem decodeStore_rejects {f3 : BitVec 3} (rs2 rs1 : Reg) (imm : BitVec 12) (h : 3 ≤ f3.toNat) :
    decodeStore f3 rs2 rs1 imm = .error .unlistedFunct3 := by
  have h0 : f3 ≠ 0b000#3 := by bv_omega
  have h1 : f3 ≠ 0b001#3 := by bv_omega
  have h2 : f3 ≠ 0b010#3 := by bv_omega
  simp [decodeStore, h0, h1, h2]

/-- R89 (e). -/
theorem decodeBranch_rejects {f3 : BitVec 3} (rs1 rs2 : Reg) (off : BitVec 13) (h : f3 ∈ [0b010#3, 0b011#3]) :
    decodeBranch f3 rs1 rs2 off = .error .unlistedFunct3 := by
  fin_cases h <;> rfl

/-- R89 (g): whichever of the two words `SYSTEM_IMM_MAP` gives to `ecall`, the other is `ebreak`. -/
theorem decodeSystem_rejects {w : Word} (h0 : w ≠ 0x00000073#32) (h1 : w ≠ 0x00100073#32) :
    decodeSystem c w = .error .unlistedSystem := by
  unfold decodeSystem ecallWord ebreakWord
  cases c.sysImmMap <;> simp [h0, h1]

end Rejects

end Sys2Proof
end

section
/-! PROOFS. The immediates of 30_encoding.md: their values from the word (R80 to R85), the positions of their bits (R86)
and the fields the assembler gives them (R93; 42_control.md R151). -/

namespace Sys2Proof.Machine

/-! ### The value of an immediate put together from pieces (R80 to R85) -/

theorem toInt_bit (b : BitVec 1) : b.toInt = -b.toNat := by
  revert b
  decide

/-- The upper piece carries the sign; the lower one counts as it stands. -/
theorem toInt_append_of_pos {m n : Nat} (x : BitVec (m + 1)) (y : BitVec n) :
    (x ++ y).toInt = x.toInt * 2 ^ n + y.toNat := by
  simp [BitVec.toInt_append, Int.mul_comm]

theorem immU_toNat (immu : BitVec 20) : (immU immu).toNat = immu.toNat * 2 ^ 12 := by
  rw [immU, BitVec.toNat_append]
  simp [Nat.shiftLeft_eq]

/-! ### Where an encoding puts the bits of an immediate (R86) -/

/-- The S layout is the R layout with the two pieces of the immediate in place of `funct7` and `rd` (R75). -/
theorem encS_eq_encR (imm : BitVec 12) (rs2 rs1 : Reg) (f3 : BitVec 3) (op : BitVec 7) :
    encS imm rs2 rs1 f3 op = encR (imm.extractLsb' 5 7) rs2 rs1 f3 (imm.extractLsb' 0 5) op := rfl

theorem encB_pieces (off : BitVec 13) (rs2 rs1 : Reg) (f3 : BitVec 3) (op : BitVec 7) :
    (encB off rs2 rs1 f3 op).extractLsb' 31 1 = off.extractLsb' 12 1 ∧
      (encB off rs2 rs1 f3 op).extractLsb' 25 6 = off.extractLsb' 5 6 ∧
      (encB off rs2 rs1 f3 op).extractLsb' 8 4 = off.extractLsb' 1 4 ∧
      (encB off rs2 rs1 f3 op).extractLsb' 7 1 = off.extractLsb' 11 1 := by
  refine ⟨?_, ?_, ?_, ?_⟩
  all_goals
    apply BitVec.eq_of_getLsbD_eq
    intro k hk
    simp only [encB, BitVec.getLsbD_extractLsb', BitVec.getLsbD_append, hk]
    interval_cases k <;> simp

theorem encJ_pieces (off : BitVec 21) (rd : Reg) (op : BitVec 7) :
    (encJ off rd op).extractLsb' 31 1 = off.extractLsb' 20 1 ∧
      (encJ off rd op).extractLsb' 21 10 = off.extractLsb' 1 10 ∧
      (encJ off rd op).extractLsb' 20 1 = off.extractLsb' 11 1 ∧
      (encJ off rd op).extractLsb' 12 8 = off.extractLsb' 12 8 := by
  refine ⟨?_, ?_, ?_, ?_⟩
  all_goals
    apply BitVec.eq_of_getLsbD_eq
    intro k hk
    simp only [encJ, BitVec.getLsbD_extractLsb', BitVec.getLsbD_append, hk]
    interval_cases k <;> simp

/-! ### The field of a value in range (R93) -/

/-- A signed value in the range of a field is what the field sign-extends to. -/
theorem toInt_signExtend_ofInt {n : Nat} (hn : n < 32) {d : Int} (hlo : -2 ^ n ≤ d) (hhi : d < 2 ^ n) :
    ((BitVec.ofInt (n + 1) d).signExtend 32).toInt = d := by
  rw [BitVec.toInt_signExtend_of_le hn, BitVec.toInt_ofInt_eq_self n.succ_pos hlo hhi]

theorem offsetEven_ofInt {n : Nat} {d : Int} (h : d % 2 = 0) : offsetEven (BitVec.ofInt (n + 1) d) = true := by
  have hmod : d % 2 ^ (n + 1) % 2 = d % 2 := Int.emod_emod_of_dvd d (dvd_pow_self 2 n.succ_ne_zero)
  have hnonneg : 0 ≤ d % 2 ^ (n + 1) := Int.emod_nonneg d (by positivity)
  rw [offsetEven_iff, BitVec.toNat_ofInt]
  push_cast
  omega

/-- The field of a distance in range, sign-extended and added to `pc`, is the label (42_control.md R151). -/
theorem pc_add_offset_eq_label {n : Nat} (hn : n < 32) {pc label : Word} (hlo : -2 ^ n ≤ labelDistance pc label)
    (hhi : labelDistance pc label < 2 ^ n) :
    pc + (BitVec.ofInt (n + 1) (labelDistance pc label)).signExtend 32 = label := by
  have hfield : (BitVec.ofInt (n + 1) (labelDistance pc label)).signExtend 32 = label - pc :=
    BitVec.eq_of_toInt_eq (toInt_signExtend_ofInt hn hlo hhi)
  rw [hfield, add_sub_cancel]

theorem branchTarget_of_assembleBranchOffset {s : State} {label : Word} {off : BitVec 13}
    (h : assembleBranchOffset s.pc label = some off) : offsetEven off = true ∧ s.branchTarget off = label := by
  obtain ⟨⟨hlo, hhi, heven⟩, hoff⟩ := Option.ite_none_right_eq_some.1 h
  cases hoff
  exact ⟨offsetEven_ofInt heven, pc_add_offset_eq_label (by decide) hlo (by omega)⟩

theorem jalTarget_of_assembleJalOffset {s : State} {label : Word} {off : BitVec 21}
    (h : assembleJalOffset s.pc label = some off) : offsetEven off = true ∧ s.jalTarget off = label := by
  obtain ⟨⟨hlo, hhi, heven⟩, hoff⟩ := Option.ite_none_right_eq_some.1 h
  cases hoff
  exact ⟨offsetEven_ofInt heven, pc_add_offset_eq_label (by decide) hlo (by omega)⟩

/-! ### The obligations -/

/-- Settles O2: at each opcode the decoder's answer encodes to the layout of the word's own fields, so to the word. -/
theorem everyListedWordIsTheEncodingOfItsInstruction : Obligations.EveryListedWordIsTheEncodingOfItsInstruction :=
  fun _ _ _ h => encode_of_decodeWord h

/-- Settles O3: the mask of a row fixes the fields the decoder branches on; and a word that decodes is the encoding of
an instruction (O2), which the row of the instruction covers. -/
theorem theOpcodeMapDecidesDecoding : Obligations.TheOpcodeMapDecidesDecoding := by
  intro c w
  refine ⟨fun _ hrow h => decodesAs_of_covers hrow h, fun i h => ?_, fun _ hrow _ hrow' => row_unique hrow hrow'⟩
  obtain ⟨hwf, rfl⟩ := encode_of_decodeWord h
  exact ⟨rowOf c i, rowOf_mem_opcodeRows hwf, rowOf_covers_encode c i, rfl⟩

/-- Settles O4: a field is a row of pieces, of which the top one carries the sign. -/
theorem immediatesAreAssembledFromTheWord : Obligations.ImmediatesAreAssembledFromTheWord := by
  intro w
  refine ⟨?_, rfl, ?_, ?_, ?_, ?_⟩
  · exact BitVec.toInt_signExtend_of_le (by decide)
  · rw [immS, BitVec.toInt_signExtend_of_le (by decide), immSOf, toInt_append_of_pos]
  · rw [immB, BitVec.toInt_signExtend_of_le (by decide), immBOf]
    simp only [toInt_append_of_pos, toInt_bit, BitVec.toNat_zero]
    omega
  · exact immU_toNat _
  · rw [immJ, BitVec.toInt_signExtend_of_le (by decide), immJOf]
    simp only [toInt_append_of_pos, toInt_bit, BitVec.toNat_zero]
    omega

/-- Settles O5, class by class: the opcode selects the part of the decoder, which rejects the class. -/
theorem nearbyWordsAreUnlisted : Obligations.NearbyWordsAreUnlisted := by
  intro c w
  refine ⟨fun hop h => ?_, fun hop => ?_, fun hop h => ?_, fun hop h => ?_, fun hop h => ?_, fun hop h => ?_,
    fun hop h0 h1 => ?_, fun h => ⟨_, decodeWord_of_opcode_unlisted c h⟩, ?_⟩
  · rw [decodeWord_op c hop]
    exact decodeOp_rejects c _ _ _ h
  · rw [decodeWord_opImm c hop]
    exact decodeOpImm_rejects_iff ..
  · exact ⟨_, (decodeWord_load c hop).trans (decodeLoad_rejects _ _ _ h)⟩
  · exact ⟨_, (decodeWord_store c hop).trans (decodeStore_rejects _ _ _ h)⟩
  · exact ⟨_, (decodeWord_branch c hop).trans (decodeBranch_rejects _ _ _ h)⟩
  · exact ⟨_, decodeWord_jalr_error c hop h⟩
  · exact ⟨_, (decodeWord_system c hop).trans (decodeSystem_rejects c h0 h1)⟩
  · rintro (rfl | rfl) <;> exact ⟨_, decodeWord_of_opcode_unlisted c (by decide)⟩

/-- Settles O6: reading each layout gives the pieces back; a branch or `jal` is well-formed when its offset is even. -/
theorem encodingAnImmediateIsTheInverse : Obligations.EncodingAnImmediateIsTheInverse := by
  refine ⟨immIOf_encI, fun imm rs2 rs1 f3 op => ?_, encB_pieces, encJ_pieces, immUOf_encU,
    fun c rs1 rs2 rd off off' => ⟨fun mk hmk => ?_, offsetEven_iff off'⟩, fun c => ⟨rfl, rfl, rfl, rfl⟩⟩
  · rw [encS_eq_encR]
    exact ⟨funct7Of_encR .., rdOf_encR ..⟩
  · fin_cases hmk <;> exact offsetEven_iff off

/-- Settles O56: the assembler's test is the range, and in range the field holds the distance. -/
theorem assembledOffsetsReachTheirLabel : Obligations.AssembledOffsetsReachTheirLabel := fun _ _ =>
  ⟨fun h => ⟨_, if_pos h⟩, fun h => if_neg h, fun _ => branchTarget_of_assembleBranchOffset,
    fun h => ⟨_, if_pos h⟩, fun h => if_neg h, fun _ => jalTarget_of_assembleJalOffset⟩

/-- Settles O57: the assembler's test is the range, and in range the field holds the value. -/
theorem operandsInRangeAreAssembled : Obligations.OperandsInRangeAreAssembled := by
  refine ⟨fun v => ⟨fun h => ⟨_, if_pos h, ?_⟩, fun h => if_neg h⟩,
    fun v => ⟨fun h => ⟨_, if_pos h, ?_⟩, fun h => if_neg (by omega)⟩,
    fun v => ⟨fun h => ⟨_, if_pos h, ?_⟩, fun h => if_neg (by omega)⟩⟩
  · exact toInt_signExtend_ofInt (by decide) h.1 (by omega)
  · exact Nat.mod_eq_of_lt (by omega)
  · rw [immU_toNat, BitVec.toNat_ofNat, Nat.mod_eq_of_lt (by omega)]

end Sys2Proof.Machine
end

section
/-! PROOFS. Table 1 (40_arithmetic.md R100 to R121): what the shared operand forms are as numbers, the shape that a
register result gives a rule of each layout, and the rules themselves. -/

namespace Sys2Proof.Machine

/-! ### Operands and results as numbers -/

/-- The sign-extended immediate, read as unsigned (30_encoding.md R80). -/
theorem toNat_immI (imm : BitVec 12) : ((immI imm).toNat : Int) = imm.toInt % 2 ^ 32 := by
  have hsum := toNat_add_signExtend 0#32 imm
  rwa [BitVec.zero_add, BitVec.toNat_zero, Nat.cast_zero, zero_add] at hsum

theorem toInt_immI (imm : BitVec 12) : (immI imm).toInt = imm.toInt :=
  BitVec.toInt_signExtend_of_le (by decide)

theorem shiftAmount_eq_mod (v : Word) : shiftAmount v = v.toNat % 32 := BitVec.extractLsb'_toNat 0 5 v

theorem toNat_boolWord_decide (p : Prop) [Decidable p] : (boolWord (decide p)).toNat = if p then 1 else 0 := by
  by_cases hp : p <;> simp [boolWord, hp]

/-- A word sum is the sum of the signed values, modulo 2^32 (40_arithmetic.md R101). -/
theorem add_eq_ofInt (a b : Word) : a + b = BitVec.ofInt 32 (a.toInt + b.toInt) := by
  rw [BitVec.ofInt_add, BitVec.ofInt_toInt, BitVec.ofInt_toInt]

theorem sub_eq_ofInt (a b : Word) : a - b = BitVec.ofInt 32 (a.toInt - b.toInt) := by
  apply BitVec.eq_of_toInt_eq
  rw [BitVec.toInt_sub, BitVec.toInt_ofInt]

theorem toNat_sub_eq_emod (a b : Word) : ((a - b).toNat : Int) = ((a.toNat : Int) - b.toNat) % 2 ^ 32 := by
  rw [BitVec.toNat_sub]
  omega

/-! ### Shifts: a left shift multiplies, a right shift divides and rounds down -/

theorem toNat_shiftLeft_eq_mul (a : Word) (n : Nat) : (a <<< n).toNat = a.toNat * 2 ^ n % 2 ^ 32 := by
  rw [BitVec.toNat_shiftLeft, Nat.shiftLeft_eq]

theorem toNat_ushiftRight_eq_div (a : Word) (n : Nat) : (a >>> n).toNat = a.toNat / 2 ^ n := by
  rw [BitVec.toNat_ushiftRight, Nat.shiftRight_eq_div_pow]

theorem toInt_sshiftRight_eq_div (a : Word) (n : Nat) : (a.sshiftRight n).toInt = a.toInt / 2 ^ n := by
  rw [BitVec.toInt_sshiftRight, Int.shiftRight_eq_div_pow, Nat.cast_pow, Nat.cast_ofNat]

/-! ### The rule of an instruction that writes a register result (R100)

For each layout, a rule is what its result says of the value written. That the row selects the instruction and that its
meaning writes that value hold by evaluation. -/

theorem completes_of_writeBack {i : Instr} {s : State} {rd : Reg} {v : Word} (h : exec i s = writeBack rd v s) :
    Completes i s rd v := by
  rw [Completes, h]
  exact writeBack_spec rd v s

section Shapes
variable {pattern : Word}

/-- R type: the row selects the instruction in `decodeOp`, and its meaning writes `f x[rs1] x[rs2]`. -/
theorem regRegRule_of_writeBack {mk : Reg → Reg → Reg → Instr} {result : Word → Word → Word → Prop}
    (f : Word → Word → Word) (hresult : ∀ a b, result a b (f a b))
    (hop : opcodeOf pattern = 0b0110011#7 := by rfl)
    (hdec : ∀ c rd rs1 rs2, decodeOp c (funct7Of pattern) (funct3Of pattern) rd rs1 rs2 = .ok (mk rd rs1 rs2) :=
      by intros; rfl)
    (hexec : ∀ s rd rs1 rs2, exec (mk rd rs1 rs2) s = writeBack rd (f (s.x rs1) (s.x rs2)) s := by intros; rfl) :
    RegRegRule pattern mk result :=
  ⟨fun _ _ hw => (decodeWord_of_mask_op hw hop).trans (hdec ..),
    fun s _ rs1 rs2 => ⟨f (s.x rs1) (s.x rs2), hresult .., completes_of_writeBack (hexec ..)⟩⟩

/-- I type: the row selects the instruction in `decodeOpImm` whatever `funct7` is, and its meaning writes
`f x[rs1] imm_I`. -/
theorem regImmRule_of_writeBack {mk : Reg → Reg → BitVec 12 → Instr} {result : Word → Int → Word → Prop}
    (f : Word → Word → Word)
    (hresult : ∀ a (imm : BitVec 12), result a imm.toInt (f a (immI imm)))
    (hop : opcodeOf pattern = 0b0010011#7 := by rfl)
    (hdec : ∀ f7 rd rs1 imm shamt, decodeOpImm f7 (funct3Of pattern) rd rs1 imm shamt = .ok (mk rd rs1 imm) :=
      by intros; rfl)
    (hexec : ∀ s rd rs1 imm, exec (mk rd rs1 imm) s = writeBack rd (f (s.x rs1) (immI imm)) s := by intros; rfl) :
    RegImmRule pattern mk result :=
  ⟨fun _ _ hw => (decodeWord_of_mask_opImm hw hop).trans (hdec ..),
    fun s _ rs1 imm => ⟨f (s.x rs1) (immI imm), hresult .., completes_of_writeBack (hexec ..)⟩⟩

/-- I* type: the row selects the instruction in `decodeOpImm`, and its meaning writes `f x[rs1] shamt`. -/
theorem shiftImmRule_of_writeBack {mk : Reg → Reg → BitVec 5 → Instr} {result : Word → Nat → Word → Prop}
    (f : Word → Nat → Word) (hresult : ∀ a n, result a n (f a n))
    (hop : opcodeOf pattern = 0b0010011#7 := by rfl)
    (hdec : ∀ rd rs1 imm shamt,
      decodeOpImm (funct7Of pattern) (funct3Of pattern) rd rs1 imm shamt = .ok (mk rd rs1 shamt) := by intros; rfl)
    (hexec : ∀ s rd rs1 shamt, exec (mk rd rs1 shamt) s = writeBack rd (f (s.x rs1) (immShiftAmount shamt)) s :=
      by intros; rfl) :
    ShiftImmRule pattern mk result :=
  ⟨fun _ _ hw => (decodeWord_of_mask_shiftImm hw hop).trans (hdec ..),
    fun s _ rs1 shamt => ⟨f (s.x rs1) shamt.toNat, hresult .., completes_of_writeBack (hexec ..)⟩⟩

end Shapes

/-! ### The obligations -/

/-- Settles O30: a word sum or difference is taken modulo 2^32, and the signed values give the same. -/
theorem addAndSubAreModulo : Obligations.AddAndSubAreModulo := by
  constructor
  · exact regRegRule_of_writeBack (· + ·) fun a b => ⟨BitVec.toNat_add a b, add_eq_ofInt a b⟩
  · exact regRegRule_of_writeBack (· - ·) fun a b => ⟨toNat_sub_eq_emod a b, sub_eq_ofInt a b⟩

/-- Settles O31: each bit of the word operation is the operation on the bits. -/
theorem andOrXorAreBitwise : Obligations.AndOrXorAreBitwise := by
  refine ⟨?_, ?_, ?_⟩
  · exact regRegRule_of_writeBack (· &&& ·) fun _ _ _ _ => BitVec.getLsbD_and
  · exact regRegRule_of_writeBack (· ||| ·) fun _ _ _ _ => BitVec.getLsbD_or
  · exact regRegRule_of_writeBack (· ^^^ ·) fun _ _ _ _ => BitVec.getLsbD_xor

/-- Settles O32: the low five bits of `x[rs2]` are its value modulo 32. -/
theorem registerShiftsUseTheLowFiveBits : Obligations.RegisterShiftsUseTheLowFiveBits := by
  simp only [Obligations.RegisterShiftsUseTheLowFiveBits, ← shiftAmount_eq_mod]
  refine ⟨?_, ?_, ?_⟩
  · exact regRegRule_of_writeBack (fun a b => a <<< shiftAmount b) fun a _ => toNat_shiftLeft_eq_mul a _
  · exact regRegRule_of_writeBack (fun a b => a >>> shiftAmount b) fun a _ => toNat_ushiftRight_eq_div a _
  · exact regRegRule_of_writeBack (fun a b => a.sshiftRight (shiftAmount b)) fun a _ => toInt_sshiftRight_eq_div a _

/-- Settles O33: the result is the word of the comparison. -/
theorem setLessThanComparesSignedAndUnsigned : Obligations.SetLessThanComparesSignedAndUnsigned := by
  constructor
  · exact regRegRule_of_writeBack (fun a b => boolWord (ltSigned a b)) fun _ _ => toNat_boolWord_decide _
  · exact regRegRule_of_writeBack (fun a b => boolWord (ltUnsigned a b)) fun _ _ => toNat_boolWord_decide _

/-- Settles O34: `imm_I` has the value of the immediate, and the word sum is taken modulo 2^32. -/
theorem addiAddsTheSignedImmediate : Obligations.AddiAddsTheSignedImmediate := by
  refine regImmRule_of_writeBack (· + ·) fun a imm => ⟨toNat_add_signExtend a imm, ?_⟩
  rw [add_eq_ofInt, toInt_immI]

/-- Settles O35, bit by bit: `imm_I` is by definition the signed value of the immediate as a word. -/
theorem logicalImmediatesAreSignExtended : Obligations.LogicalImmediatesAreSignExtended := by
  refine ⟨?_, ?_, ?_⟩
  · exact regImmRule_of_writeBack (· &&& ·) fun _ _ _ _ => BitVec.getLsbD_and
  · exact regImmRule_of_writeBack (· ||| ·) fun _ _ _ _ => BitVec.getLsbD_or
  · exact regImmRule_of_writeBack (· ^^^ ·) fun _ _ _ _ => BitVec.getLsbD_xor

/-- Settles O36: the shifts of O32 with the amount in the word. -/
theorem immediateShiftsUseTheField : Obligations.ImmediateShiftsUseTheField := by
  refine ⟨?_, ?_, ?_⟩
  · exact shiftImmRule_of_writeBack (· <<< ·) toNat_shiftLeft_eq_mul
  · exact shiftImmRule_of_writeBack (· >>> ·) toNat_ushiftRight_eq_div
  · exact shiftImmRule_of_writeBack BitVec.sshiftRight toInt_sshiftRight_eq_div

/-- Settles O37: `imm_I` read as signed is the immediate, and read as unsigned the immediate modulo 2^32. -/
theorem setLessThanImmediateComparesSignedAndUnsigned : Obligations.SetLessThanImmediateComparesSignedAndUnsigned := by
  constructor
  · refine regImmRule_of_writeBack (fun a b => boolWord (ltSigned a b)) fun a imm => ?_
    rw [← toInt_immI]
    exact toNat_boolWord_decide _
  · refine regImmRule_of_writeBack (fun a b => boolWord (ltUnsigned a b)) fun a imm => ?_
    simp only [← toNat_immI, Nat.cast_lt]
    exact toNat_boolWord_decide _

end Sys2Proof.Machine
end

section
/-! PROOFS. Table 2 (41_loads_stores.md R130 to R140): what a load or a store does when a check fails and when all pass
gives its rule, and the rule of each of the eight instructions. -/

namespace Sys2Proof.Machine

/-! ### What a raise and a store leave -/

theorem raises_of_raise {i : Instr} {s : State} {h : Handover} (hi : exec i s = raise h s) : Raises i s h := by
  rw [Raises, hi]
  exact raise_handsOver h s

/-- A store that completes, and the advance after it: the bytes of the access, the record of them and `pc`. -/
theorem storeResult_storeBytes (s : State) (ea : Word) {n : Nat} (v : BitVec (8 * n)) (hn : n ≤ 2 ^ 32) :
    StoreResult s (s.storeBytes ea n v).advance ea n v where
  inside i hi := storeBytes_byte_inside s ea n v i hi hn
  outside b hb := storeBytes_byte_outside s ea n v b hb
  stored k := mem_stored_storeBytes s ea n v k
  regs _ := rfl
  pc := rfl
  handover := rfl
  params := rfl

/-! ### The rule of a load and the rule of a store (R139)

The row selects the instruction, and its meaning is the shared `loadInto` or `storeFrom`; both hold by evaluation. The
rest follows from the three cases of the shared operation. -/

section Shapes
variable {pattern : Word} {mk : Reg → Reg → BitVec 12 → Instr} {n : Nat}

/-- A load's rule, from the value it completes with when both checks pass. -/
theorem loadRule_of_loadInto {value : (Word → Byte) → Word → Word} (ext : BitVec (8 * n) → Word)
    (hcompletes : ∀ {s : State} {rd rs1 : Reg} {imm : BitVec 12}, AlignmentAllows s (s.loadAddr rs1 imm) n →
      Permitted s .r (s.loadAddr rs1 imm) n → Completes (mk rd rs1 imm) s rd (value s.byte (s.loadAddr rs1 imm)))
    (hop : opcodeOf pattern = 0b0000011#7 := by rfl)
    (hdec : ∀ rd rs1 imm, decodeLoad (funct3Of pattern) rd rs1 imm = .ok (mk rd rs1 imm) := by intros; rfl)
    (hexec : ∀ s rd rs1 imm, exec (mk rd rs1 imm) s = loadInto n ext rd (s.loadAddr rs1 imm) s := by intros; rfl) :
    LoadRule pattern mk n value := by
  refine ⟨fun _ _ hw => (decodeWord_of_mask_load hw hop).trans (hdec ..), fun s rd rs1 imm => ?_⟩
  refine and_assoc.1 ⟨?_, hcompletes⟩
  rw [alignmentAllows_iff]
  rcases loadInto_cases n ext rd (s.loadAddr rs1 imm) s with ⟨ht, e⟩ | ⟨ht, -, e⟩ | ⟨ht, hp, -⟩
  · exact ⟨fun _ => raises_of_raise ((hexec ..).trans e), fun h => absurd h (by simp [ht])⟩
  · exact ⟨fun h => absurd ht h, fun _ _ => raises_of_raise ((hexec ..).trans e)⟩
  · exact ⟨fun h => absurd ht h, fun _ h => absurd hp h⟩

/-- A store's rule: the instruction is one of the three stores, `n` bytes wide. -/
theorem storeRule_of_mem (hn : n ≤ 4)
    (hmem : ∀ rs2 rs1 imm,
      (mk rs2 rs1 imm, n) ∈ [(Instr.sb rs2 rs1 imm, 1), (.sh rs2 rs1 imm, 2), (.sw rs2 rs1 imm, 4)])
    (hop : opcodeOf pattern = 0b0100011#7 := by rfl)
    (hdec : ∀ rs2 rs1 imm, decodeStore (funct3Of pattern) rs2 rs1 imm = .ok (mk rs2 rs1 imm) := by intros; rfl) :
    StoreRule pattern mk n := by
  refine ⟨fun _ _ hw => (decodeWord_of_mask_store hw hop).trans (hdec ..), fun s rs2 rs1 imm => ?_⟩
  have hexec := exec_store_eq rs2 rs1 imm s _ (hmem rs2 rs1 imm)
  rw [← BitVec.setWidth_eq_extractLsb' (by omega)] at hexec
  intro ea
  rw [alignmentAllows_iff]
  rcases storeFrom_cases n ((s.x rs2).setWidth (8 * n)) ea s with ⟨ht, e⟩ | ⟨ht, hp, e⟩ | ⟨ht, hp, e⟩
  · have hno : s.trapsMisaligned ea n ≠ false := by simp [ht]
    exact ⟨fun _ => raises_of_raise (hexec.trans e), fun h => absurd h hno, fun h => absurd h hno⟩
  · exact ⟨fun h => absurd ht h, fun _ _ => raises_of_raise (hexec.trans e), fun _ h => absurd h hp⟩
  · exact ⟨fun h => absurd ht h, fun _ h => absurd hp h,
      fun _ _ => ⟨_, hexec.trans e, storeResult_storeBytes s ea _ (by omega)⟩⟩

end Shapes

/-! ### The obligations -/

/-- Settles O38: the one byte read, extended; every address is a multiple of 1. -/
theorem byteLoadsExtendOneByte : Obligations.ByteLoadsExtendOneByte := by
  refine ⟨?_, ?_, fun _ _ => .inl (Nat.mod_one _)⟩
  · exact loadRule_of_loadInto (BitVec.signExtend 32) fun _ hp => (byteLoads_complete hp rfl).1
  · exact loadRule_of_loadInto (BitVec.setWidth 32) fun _ hp => (byteLoads_complete hp rfl).2

/-- Settles O39: the half-word read, the byte at `ea + 1` above the byte at `ea`, extended. -/
theorem halfWordLoadsExtendTwoBytes : Obligations.HalfWordLoadsExtendTwoBytes := by
  constructor
  · exact loadRule_of_loadInto (BitVec.signExtend 32) fun ha hp => (halfLoads_complete rfl ha hp (readLE_two ..)).1
  · exact loadRule_of_loadInto (BitVec.setWidth 32) fun ha hp => (halfLoads_complete rfl ha hp (readLE_two ..)).2

/-- Settles O40: the word read is its four bytes. -/
theorem wordLoadReadsFourBytes : Obligations.WordLoadReadsFourBytes :=
  loadRule_of_loadInto id fun ha hp => wordLoad_completes rfl ha hp (readLE_four ..)

/-- Settles O41: `sb` is the store one byte wide. -/
theorem sbStoresTheLowByte : Obligations.SbStoresTheLowByte :=
  storeRule_of_mem (by decide) fun _ _ _ => by simp

/-- Settles O42: `sh` is the store two bytes wide. -/
theorem shStoresTheLowHalfWord : Obligations.ShStoresTheLowHalfWord :=
  storeRule_of_mem (by decide) fun _ _ _ => by simp

/-- Settles O43: `sw` is the store four bytes wide. -/
theorem swStoresTheWord : Obligations.SwStoresTheWord :=
  storeRule_of_mem (by decide) fun _ _ _ => by simp

end Sys2Proof.Machine
end

section
/-! PROOFS. Table 3 (42_control.md R150 to R160): the outcome of the shared `branchTo` and `jumpLink`, the rule that
follows for a branch from its comparison and for a jump from its target, and the eight instructions. -/

namespace Sys2Proof.Machine

/-! ### The outcome of a branch and of a jump (R150, R152) -/

theorem movedPc_setPc (s : State) (t : Word) : MovedPc (.next (s.setPc t)) s t :=
  ⟨_, rfl, setPc_pc s t, setPc_x s t, setPc_byte s t, setPc_stored s t, setPc_handover s t, setPc_params s t⟩

/-- A register result says nothing of `pc`. -/
theorem RegResult.setPc {s t : State} {rd : Reg} {v : Word} (h : RegResult s t rd v) (a : Word) :
    RegResult s (t.setPc a) rd v :=
  ⟨h.result, h.zero, h.others, h.bytes, h.rest⟩

theorem wroteReg_setX_setPc (s : State) (rd : Reg) (v t : Word) :
    WroteReg (.next ((s.setX rd v).setPc t)) s rd v t :=
  ⟨_, rfl, (regResult_setX s rd v).setPc t, setPc_pc _ t⟩

theorem branchTo_outcome {b : Bool} {taken : Prop} (hiff : b = true ↔ taken) (t : Word) (s : State) :
    BranchOutcome (branchTo b t s) s taken t := by
  rw [← hiff]
  rcases branchTo_cases b t s with ⟨hb, ht, e⟩ | ⟨hb, ht, e⟩ | ⟨hb, e⟩ <;> rw [e]
  · exact ⟨fun _ _ => movedPc_setPc s t, fun _ h => absurd ht h, fun h => absurd hb h⟩
  · exact ⟨fun _ h => absurd h ht, fun _ _ => raise_handsOver _ s, fun h => absurd hb h⟩
  · have hno : b ≠ true := Bool.eq_false_iff.1 hb
    exact ⟨fun h => absurd h hno, fun h => absurd h hno, fun _ => movedPc_setPc s _⟩

theorem jumpLink_outcome (rd : Reg) (t : Word) (s : State) : JumpOutcome (jumpLink rd t s) s rd t := by
  rcases jumpLink_cases rd t s with ⟨ht, e⟩ | ⟨ht, e⟩ <;> rw [e]
  · exact ⟨fun _ => wroteReg_setX_setPc s rd _ t, fun h => absurd ht h⟩
  · exact ⟨fun h => absurd h ht, fun _ => raise_handsOver _ s⟩

/-! ### The conditions and the target of `jalr` -/

theorem geSigned_iff (a b : Word) : geSigned a b = true ↔ a.toInt ≥ b.toInt := by
  simp [geSigned, ltSigned]

theorem geUnsigned_iff (a b : Word) : geUnsigned a b = true ↔ a.toNat ≥ b.toNat := by
  simp [geUnsigned, ltUnsigned]

/-- The mask `0xFFFFFFFE` clears bit 0: the value is rounded down to an even one. -/
theorem toNat_and_clearBit0 (a : Word) : (a &&& 0xFFFFFFFE#32).toNat = a.toNat / 2 * 2 := by
  have hmask : 0xFFFFFFFE#32 = BitVec.allOnes 32 <<< 1 := rfl
  rw [hmask, ← BitVec.shiftLeft_ushiftRight, toNat_shiftLeft_eq_mul, toNat_ushiftRight_eq_div]
  omega

theorem toNat_jalrTarget (s : State) (rs1 : Reg) (imm : BitVec 12) :
    ((s.jalrTarget rs1 imm).toNat : Int) = (((s.x rs1).toNat : Int) + imm.toInt) % 2 ^ 32 / 2 * 2 := by
  rw [State.jalrTarget, toNat_and_clearBit0, ← toNat_add_signExtend]
  rfl

/-! ### The rule of a branch

The row selects the instruction in `decodeBranch`, and its meaning is `branchTo` at the target of R151; both hold by
evaluation. -/

theorem branchRule_of_branchTo {pattern : Word} {mk : Reg → Reg → BitVec 13 → Instr} {taken : Word → Word → Prop}
    (cond : Word → Word → Bool) (hcond : ∀ a b, cond a b = true ↔ taken a b)
    (hop : opcodeOf pattern = 0b1100011#7 := by rfl)
    (hdec : ∀ rs1 rs2 offset, decodeBranch (funct3Of pattern) rs1 rs2 offset = .ok (mk rs1 rs2 offset) :=
      by intros; rfl)
    (hexec : ∀ s rs1 rs2 offset,
      exec (mk rs1 rs2 offset) s = branchTo (cond (s.x rs1) (s.x rs2)) (s.branchTarget offset) s := by intros; rfl) :
    BranchRule pattern mk taken := by
  refine ⟨fun _ _ hw => (decodeWord_of_mask_branch hw hop).trans (hdec ..), fun s rs1 rs2 offset => ?_⟩
  rw [hexec]
  exact branchTo_outcome (hcond ..) _ s

/-! ### The obligations -/

/-- Settles O44: the conditions are equality and inequality of words. -/
theorem beqAndBneCompareAllBits : Obligations.BeqAndBneCompareAllBits := by
  constructor
  · exact branchRule_of_branchTo (· == ·) fun _ _ => beq_iff_eq
  · exact branchRule_of_branchTo (· != ·) fun _ _ => bne_iff_ne

/-- Settles O45: the conditions are the signed comparison and its negation. -/
theorem bltAndBgeCompareSigned : Obligations.BltAndBgeCompareSigned := by
  constructor
  · exact branchRule_of_branchTo ltSigned fun _ _ => decide_eq_true_iff
  · exact branchRule_of_branchTo geSigned geSigned_iff

/-- Settles O46: the conditions are the unsigned comparison and its negation. -/
theorem bltuAndBgeuCompareUnsigned : Obligations.BltuAndBgeuCompareUnsigned := by
  constructor
  · exact branchRule_of_branchTo ltUnsigned fun _ _ => decide_eq_true_iff
  · exact branchRule_of_branchTo geUnsigned geUnsigned_iff

/-- Settles O47: `jal` links and jumps to `pc` plus its offset, both with the `pc` of the `jal`. -/
theorem jalLinksAndJumpsRelativeToItself : Obligations.JalLinksAndJumpsRelativeToItself := by
  constructor
  · exact fun c _ hw => decodeWord_jal c (fields_of_mask_opcode hw)
  · exact fun s rd offset => jumpLink_outcome rd (s.jalTarget offset) s

/-- Settles O48: the target is `jalrTarget` of the state before the link is written. -/
theorem jalrLinksAndJumpsToTheClearedSum : Obligations.JalrLinksAndJumpsToTheClearedSum := by
  constructor
  · intro c _ hw
    obtain ⟨hop, h3⟩ := fields_of_mask_funct3 hw
    exact decodeWord_jalr c hop h3
  · exact fun s rd rs1 imm => ⟨s.jalrTarget rs1 imm, toNat_jalrTarget s rs1 imm, jumpLink_outcome rd _ s⟩

end Sys2Proof.Machine
end

section
/-! PROOFS. Tables 4 and 5 (43_other.md R170 to R176): the U immediate and the product as values modulo 2^32, the only
word of `ecall` and the only word of `ebreak`, and the five instructions. -/

namespace Sys2Proof.Machine

/-! ### The words of `ecall` and `ebreak` (R175) -/

section SystemWords
variable {c : Params} {w : Word}

theorem decodeWord_eq_ecall_iff : decodeWord c w = .ok .ecall ↔ w = ecallWord c := by
  constructor
  · exact fun h => (encode_of_decodeWord h).2.symm
  · rintro rfl
    exact decodeWord_ecallWord c

theorem decodeWord_eq_ebreak_iff : decodeWord c w = .ok .ebreak ↔ w = ebreakWord c := by
  constructor
  · exact fun h => (encode_of_decodeWord h).2.symm
  · rintro rfl
    exact decodeWord_ebreakWord c

end SystemWords

/-! ### The row of `mul` (R174) -/

theorem decodeWord_mul (c : Params) {w : Word} (h : w &&& 0xFE00707F#32 = 0x02000033#32) :
    decodeWord c w = if c.extMul then .ok (.mul (rdOf w) (rs1Of w) (rs2Of w)) else .error .mulAbsent :=
  decodeWord_of_mask_op h rfl

/-! ### Results as numbers (R170, R171, R176) -/

theorem immU_eq_ofNat (immu : BitVec 20) : immU immu = BitVec.ofNat 32 (immu.toNat * 2 ^ 12) := by
  rw [← immU_toNat, BitVec.ofNat_toNat, BitVec.setWidth_eq]

theorem add_immU_eq_ofNat (a : Word) (immu : BitVec 20) :
    a + immU immu = BitVec.ofNat 32 (a.toNat + immu.toNat * 2 ^ 12) := by
  rw [BitVec.ofNat_add, ← immU_eq_ofNat, BitVec.ofNat_toNat, BitVec.setWidth_eq]

/-- A word product is the product of the signed values, modulo 2^32. -/
theorem mul_eq_ofInt (a b : Word) : a * b = BitVec.ofInt 32 (a.toInt * b.toInt) := by
  rw [BitVec.ofInt_mul, BitVec.ofInt_toInt, BitVec.ofInt_toInt]

/-! ### The obligations -/

/-- Settles O49: the opcode alone selects the instruction, and the immediate is the field times 2^12. -/
theorem upperImmediatesFillTheHighTwentyBits : Obligations.UpperImmediatesFillTheHighTwentyBits := by
  refine ⟨fun c _ hw => decodeWord_auipc c (fields_of_mask_opcode hw),
    fun c _ hw => decodeWord_lui c (fields_of_mask_opcode hw), fun s rd immu => ⟨?_, ?_⟩⟩
  · rw [← add_immU_eq_ofNat]
    exact completes_of_writeBack rfl
  · rw [← immU_eq_ofNat]
    exact completes_of_writeBack rfl

/-- Settles O51: a word that decodes is the encoding of its instruction (O2), and each of the two has one encoding. -/
theorem systemImmMapSwapsTheTwoWords : Obligations.SystemImmMapSwapsTheTwoWords := fun _ _ =>
  ⟨decodeWord_eq_ecall_iff, decodeWord_eq_ebreak_iff⟩

/-- Settles O52: the row leaves the decoder at its test of `EXT_MUL`, and the word product is the product modulo 2^32 of
either reading of the registers. -/
theorem mulKeepsTheLowHalfOfTheProduct : Obligations.MulKeepsTheLowHalfOfTheProduct := by
  refine ⟨fun c w hw => ?_, fun s rd rs1 rs2 => ⟨s.x rs1 * s.x rs2, ?_, ?_, ?_⟩⟩
  · rw [decodeWord_mul c hw]
    exact ⟨fun hext => if_pos hext, fun hext => if_neg (Bool.eq_false_iff.1 hext)⟩
  · exact BitVec.toNat_mul ..
  · exact mul_eq_ofInt ..
  · exact completes_of_writeBack rfl

/-- Settles O50: the words are those of O51 under `official`, and the meaning of each is a raise. -/
theorem ebreakAndEcallAlwaysRaise : Obligations.EbreakAndEcallAlwaysRaise := by
  refine ⟨fun c hmap => ⟨?_, ?_⟩, fun s => ⟨raises_of_raise rfl, raises_of_raise rfl⟩⟩
  · rw [decodeWord_eq_ebreak_iff, ebreakWord, hmap]
  · rw [decodeWord_eq_ecall_iff, ecallWord, hmap]

end Sys2Proof.Machine
end

section
/-! PROOFS. Table 6 (44_pseudoinstructions.md R190 to R202): the two parts a constant is split into, what running an
expansion of one and of two instructions does, and the twelve pseudoinstructions. -/

namespace Sys2Proof.Machine

/-! ### The parts of a constant (R196, R197)

`imm_I` of the low part agrees with the constant modulo 2^12, and every `imm_I` is one of the 2^12 values from -2048 on.
The split follows from these two facts. -/

theorem toNat_immI_loPart_mod (v : Word) : (immI (loPart v)).toNat % 2 ^ 12 = v.toNat % 2 ^ 12 := by
  have himm := toNat_immI (loPart v)
  have hlo : (loPart v).toNat = v.toNat % 2 ^ 12 := BitVec.extractLsb'_toNat 0 12 v
  rw [BitVec.toInt_eq_toNat_cond] at himm
  omega

theorem toNat_immI_add_lt (imm : BitVec 12) : (immI imm + 0x00000800#32).toNat < 2 ^ 12 := by
  have himm := toNat_immI imm
  have hlo := BitVec.le_two_mul_toInt (x := imm)
  have hhi := BitVec.two_mul_toInt_lt (x := imm)
  rw [BitVec.toNat_add, BitVec.toNat_ofNat]
  omega

theorem toNat_extract_high (v : Word) : (v.extractLsb' 12 20).toNat = v.toNat / 2 ^ 12 := by
  rw [BitVec.extractLsb'_toNat, Nat.shiftRight_eq_div_pow]
  omega

/-- Adding 0x800 before the shift rounds to the same multiple of 2^12 as subtracting the signed low part. -/
theorem hiPart_eq_extract (v : Word) : hiPart v = (v + 0x00000800#32).extractLsb' 12 20 := by
  have hmod := toNat_immI_loPart_mod v
  have hlt := toNat_immI_add_lt (loPart v)
  apply BitVec.eq_of_toNat_eq
  rw [hiPart, toNat_extract_high, toNat_extract_high]
  bv_omega

/-- The two parts make up the constant. -/
theorem immU_hiPart_add_immI_loPart (v : Word) : immU (hiPart v) + immI (loPart v) = v := by
  have hmod := toNat_immI_loPart_mod v
  apply BitVec.eq_of_toNat_eq
  rw [BitVec.toNat_add, immU_toNat, hiPart, toNat_extract_high]
  bv_omega

theorem immI_loPart_of_small {v : Word} (h : -2048 ≤ v.toInt ∧ v.toInt ≤ 2047) : immI (loPart v) = v := by
  have hmod := toNat_immI_loPart_mod v
  have hlt := toNat_immI_add_lt (loPart v)
  obtain ⟨hlo, hhi⟩ := h
  rw [BitVec.toInt_eq_toNat_cond] at hlo hhi
  apply BitVec.eq_of_toNat_eq
  bv_omega

theorem immI_zero : immI 0#12 = 0#32 := rfl

theorem immI_neg_one : immI (BitVec.ofInt 12 (-1)) = BitVec.allOnes 32 := rfl

/-! ### Running an expansion of one instruction, and of one with an `addi` to the same register -/

theorem execAll_singleton (i : Instr) (s : State) : execAll [i] s = exec i s := by
  rw [execAll]
  cases exec i s <;> rfl

theorem execAll_cons_of_next {i : Instr} {s t : State} (h : exec i s = .next t) (is : List Instr) :
    execAll (i :: is) s = execAll is t := by
  rw [execAll, h]

/-- A second result to the same register, computed from the first, is one result computed from the first value. -/
theorem RegResult.update {s t u : State} {rd : Reg} {v : Word} {f : Word → Word} (h : RegResult s t rd v)
    (h' : RegResult t u rd (f (t.x rd))) : RegResult s u rd (f v) where
  result hrd := by rw [h'.result hrd, h.result hrd]
  zero := h'.zero
  others r hr := (h'.others r hr).trans (h.others r hr)
  bytes a := (h'.bytes a).trans (h.bytes a)
  rest := by
    obtain ⟨hstored, hhandover, hparams⟩ := h.rest
    obtain ⟨hstored', hhandover', hparams'⟩ := h'.rest
    exact ⟨hstored'.trans hstored, hhandover'.trans hhandover, hparams'.trans hparams⟩

/-- An instruction that leaves `v` in `x[rd]`, then `addi rd, rd, imm`. -/
theorem execAll_addi_wroteReg {i : Instr} {s : State} {rd : Reg} {v : Word} (h : Completes i s rd v) (imm : BitVec 12) :
    WroteReg (execAll [i, .addi rd rd imm] s) s rd (v + immI imm) (s.pc + 8#32) := by
  obtain ⟨t, hexec, ht, hpc⟩ := h
  obtain ⟨u, hexec', hu, hpc'⟩ : Completes (.addi rd rd imm) t rd (t.x rd + immI imm) := completes_of_writeBack rfl
  refine ⟨u, ?_, ht.update (f := (· + immI imm)) hu, ?_⟩
  · rw [execAll_cons_of_next hexec, execAll_singleton, hexec']
  · rw [hpc', hpc, BitVec.add_assoc]
    rfl

/-! ### `li` and `la` (R196, R197) -/

section Li
variable {rd : Reg} {v : Word}

theorem expandLi_of_small (h : -2048 ≤ v.toInt ∧ v.toInt ≤ 2047) : expandLi rd v = [.addi rd 0#5 (loPart v)] :=
  if_pos h

theorem expandLi_of_loPart_zero (h : ¬(-2048 ≤ v.toInt ∧ v.toInt ≤ 2047)) (hlo : loPart v = 0#12) :
    expandLi rd v = [.lui rd (hiPart v)] :=
  (if_neg h).trans (if_pos hlo)

theorem expandLi_of_loPart_ne_zero (h : ¬(-2048 ≤ v.toInt ∧ v.toInt ≤ 2047)) (hlo : loPart v ≠ 0#12) :
    expandLi rd v = [.lui rd (hiPart v), .addi rd rd (loPart v)] :=
  (if_neg h).trans (if_neg hlo)

end Li

/-- Each of the three shapes of `li` leaves the constant: `x0` plus the low part, the high part alone, or both. -/
theorem execAll_expandLi (rd : Reg) (v : Word) (s : State) :
    WroteReg (execAll (expandLi rd v) s) s rd v (s.pc + BitVec.ofNat 32 (4 * (expandLi rd v).length)) := by
  have hsum := immU_hiPart_add_immI_loPart v
  by_cases hsmall : -2048 ≤ v.toInt ∧ v.toInt ≤ 2047
  · rw [expandLi_of_small hsmall, execAll_singleton]
    have hwrite : exec (.addi rd 0#5 (loPart v)) s = writeBack rd (0#32 + immI (loPart v)) s := rfl
    rw [BitVec.zero_add, immI_loPart_of_small hsmall] at hwrite
    exact completes_of_writeBack hwrite
  · have hlui : Completes (.lui rd (hiPart v)) s rd (immU (hiPart v)) := completes_of_writeBack rfl
    by_cases hlo : loPart v = 0#12
    · rw [expandLi_of_loPart_zero hsmall hlo, execAll_singleton]
      rw [hlo, immI_zero, BitVec.add_zero] at hsum
      rwa [hsum] at hlui
    · rw [expandLi_of_loPart_ne_zero hsmall hlo]
      have hrun := execAll_addi_wroteReg hlui (loPart v)
      rwa [hsum] at hrun

/-- Settles O53: the shapes are those of `expandLi`, and `execAll_expandLi` runs each of them. -/
theorem liLoadsEveryConstant : Obligations.LiLoadsEveryConstant := by
  intro s rd v lo hi
  have hhi : hiPart v = hi := hiPart_eq_extract v
  rw [← hhi]
  exact ⟨expandLi_of_small, expandLi_of_loPart_ne_zero, expandLi_of_loPart_zero, execAll_expandLi rd v s⟩

/-- Settles O54: the `auipc` adds the high part of the distance to `pc`, the `addi` its low part. -/
theorem laLoadsTheAddressOfItsLabel : Obligations.LaLoadsTheAddressOfItsLabel := by
  intro s rd label delta
  have hlabel : s.pc + immU (hiPart delta) + immI (loPart delta) = label := by
    rw [BitVec.add_assoc, immU_hiPart_add_immI_loPart, add_sub_cancel]
  rw [← hiPart_eq_extract]
  have hauipc : Completes (.auipc rd (hiPart delta)) s rd (s.pc + immU (hiPart delta)) := completes_of_writeBack rfl
  have hrun := execAll_addi_wroteReg hauipc (loPart delta)
  rw [hlabel] at hrun
  exact ⟨rfl, hrun⟩

/-! ### The ten of one instruction (R191 to R195, R198 to R202) -/

/-- A register result to `x0` writes no register (10_state.md R21). -/
theorem WroteReg.movedPc {o : Host.Outcome State Fault Refusal} {s : State} {v target : Word}
    (h : WroteReg o s 0#5 v target) : MovedPc o s target := by
  obtain ⟨t, ho, ht, hpc⟩ := h
  refine ⟨t, ho, hpc, fun r => ?_, ht.bytes, ht.rest⟩
  by_cases hr : r = 0#5
  · rw [hr, ht.zero, x_zero]
  · exact ht.others r hr

/-- A jump that links to `x0` moves `pc`, or raises at a misaligned target. -/
theorem JumpOutcome.movedPc {o : Host.Outcome State Fault Refusal} {s : State} {target : Word}
    (h : JumpOutcome o s 0#5 target) :
    (target.toNat % 4 = 0 → MovedPc o s target) ∧
      (target.toNat % 4 ≠ 0 → HandedOver o s ⟨.instructionAddressMisaligned, target⟩) := by
  obtain ⟨haligned, hmisaligned⟩ := h
  exact ⟨fun hmod => (haligned hmod).movedPc, hmisaligned⟩

theorem toNat_and_clearBit0_aligned_iff (a : Word) : (a &&& 0xFFFFFFFE#32).toNat % 4 = 0 ↔ a.toNat % 4 < 2 := by
  rw [toNat_and_clearBit0]
  omega

theorem jalrTarget_zero (s : State) (rs1 : Reg) : s.jalrTarget rs1 0#12 = s.x rs1 &&& 0xFFFFFFFE#32 := by
  rw [State.jalrTarget, immI_zero, BitVec.add_zero]

/-- `jalr x0, rs1, 0`, the expansion of `jr` and, with `x1`, of `ret`. -/
theorem exec_jalr_zero_zero_outcome (rs1 : Reg) (s : State) :
    ((s.x rs1).toNat % 4 < 2 → MovedPc (exec (.jalr 0#5 rs1 0#12) s) s (s.x rs1 &&& 0xFFFFFFFE#32)) ∧
      (2 ≤ (s.x rs1).toNat % 4 → HandedOver (exec (.jalr 0#5 rs1 0#12) s) s
        ⟨.instructionAddressMisaligned, s.x rs1 &&& 0xFFFFFFFE#32⟩) := by
  have hjump : JumpOutcome (exec (.jalr 0#5 rs1 0#12) s) s 0#5 (s.jalrTarget rs1 0#12) := jumpLink_outcome ..
  rw [← toNat_and_clearBit0_aligned_iff, ← not_lt, ← toNat_and_clearBit0_aligned_iff, ← jalrTarget_zero]
  exact hjump.movedPc

theorem exec_addi_zero_completes (rd rs1 : Reg) (s : State) : Completes (.addi rd rs1 0#12) s rd (s.x rs1) := by
  have hwrite : exec (.addi rd rs1 0#12) s = writeBack rd (s.x rs1 + immI 0#12) s := rfl
  rw [immI_zero, BitVec.add_zero] at hwrite
  exact completes_of_writeBack hwrite

theorem exec_sub_zero_completes (rd rs1 : Reg) (s : State) : Completes (.sub rd 0#5 rs1) s rd (-s.x rs1) := by
  have hwrite : exec (.sub rd 0#5 rs1) s = writeBack rd (0#32 - s.x rs1) s := rfl
  rw [BitVec.zero_sub] at hwrite
  exact completes_of_writeBack hwrite

theorem exec_xori_neg_one_completes (rd rs1 : Reg) (s : State) :
    Completes (.xori rd rs1 (BitVec.ofInt 12 (-1))) s rd (~~~s.x rs1) := by
  have hwrite : exec (.xori rd rs1 (BitVec.ofInt 12 (-1))) s =
      writeBack rd (s.x rs1 ^^^ immI (BitVec.ofInt 12 (-1))) s := rfl
  rw [immI_neg_one, BitVec.xor_allOnes] at hwrite
  exact completes_of_writeBack hwrite

/-- Settles O55: the expansions hold by definition, and each runs as its one instruction (R190). -/
theorem oneInstructionPseudoinstructionsExpandAndRun : Obligations.OneInstructionPseudoinstructionsExpandAndRun := by
  obtain ⟨⟨-, hbeq⟩, -, hbne⟩ := beqAndBneCompareAllBits
  obtain ⟨-, hjal⟩ := jalLinksAndJumpsRelativeToItself
  intro s rd rs1 off off'
  simp only [expand, execAll_singleton, true_and]
  refine ⟨?beqz, ?bnez, ?j, ?jal, ?jr, ?ret, ?mv, ?neg, ?not, ?nop⟩
  case beqz => exact hbeq s rs1 0#5 off
  case bnez => exact hbne s rs1 0#5 off
  case j => exact (hjal s 0#5 off').movedPc
  case jal => exact hjal s 1#5 off'
  case jr => exact exec_jalr_zero_zero_outcome rs1 s
  case ret => exact exec_jalr_zero_zero_outcome 1#5 s
  case mv => exact exec_addi_zero_completes rd rs1 s
  case neg => exact exec_sub_zero_completes rd rs1 s
  case not => exact exec_xori_neg_one_completes rd rs1 s
  case nop => exact (exec_addi_zero_completes 0#5 0#5 s).movedPc

end Sys2Proof.Machine
end

section
/-! PROOFS. The rules of 60_exceptions.md: an unlisted word (R223), an exception is precise (R227), the only causes
raised are those of the table (R220), and a run ends at its hand-over until a new launch (R226, R228). -/

namespace Sys2Proof.Machine

/-! ### An unlisted word (R223) -/

theorem step_eq_unlisted {s : State} {w : Word} {e : Reject} (hh : s.handover = none) (hf : s.fetch = .word w)
    (hd : decodeWord s.params w = .error e) : step s = unlisted w s := by
  simp [step, runWord, hh, hf, hd]

/-! ### A hand-over changes nothing else (R226, R227) -/

/-- Writing the record alone is a hand-over: nothing that `HandsOver` keeps differs. -/
theorem handsOver_set_handover (s : State) (h : Handover) : HandsOver s { s with handover := some h } h := by
  obtain ⟨t, ht, hands⟩ := raise_handsOver h s
  cases ht
  exact hands

theorem eq_of_raise {e h : Handover} {s t : State} (hraise : raise e s = .next t) (ht : t.handover = some h) :
    t = { s with handover := some h } := by
  cases hraise
  rw [← ht]

theorem record_of_raise {e h : Handover} {s t : State} (hraise : raise e s = .next t) (ht : t.handover = some h) :
    h = e := by
  cases hraise
  exact (Option.some.inj ht).symm

/-- Of the six effects of an instruction only the raise makes a hand-over record, and it writes nothing else. -/
theorem Effect.eq_of_handover {i : Instr} {s t : State} {h : Handover} (e : Effect i s t) (hs : s.handover = none)
    (ht : t.handover = some h) : t = { s with handover := some h } := by
  cases e with
  | raises e => exact eq_of_raise rfl ht
  | writes rd v => simp [hs] at ht
  | stores ea n v => simp [hs] at ht
  | branches a => simp [hs] at ht
  | jumps rd a => simp [hs] at ht
  | falls => simp [hs] at ht

theorem eq_of_step_handover {s t : State} {h : Handover} (hstep : step s = .next t) (ht : t.handover = some h) :
    t = { s with handover := some h } := by
  obtain ⟨hs, ⟨e, hraise⟩ | ⟨w, i, -, -, hexec⟩⟩ := raise_or_exec_of_step hstep
  · exact eq_of_raise hraise ht
  · exact (effect_of_exec hexec).eq_of_handover hs ht

/-! ### What an instruction can raise (R220) -/

/-- Every hand-over record that the outcome `o` ends with meets `P`. -/
def OnlyRaises (o : Host.Outcome State Fault Refusal) (P : Handover → Prop) : Prop :=
  ∀ t h, o = .next t → t.handover = some h → P h

section Shapes
variable {s : State} {P : Handover → Prop}

/-- A next state without a hand-over raises nothing. -/
theorem onlyRaises_next (hs : s.handover = none) : OnlyRaises (.next s) P := by
  intro t h hnext ht
  cases hnext
  simp [hs] at ht

theorem onlyRaises_raise {e : Handover} (he : P e) : OnlyRaises (raise e s) P := by
  intro t h hraise ht
  rwa [record_of_raise hraise ht]

theorem onlyRaises_writeBack (hs : s.handover = none) (rd : Reg) (v : Word) : OnlyRaises (writeBack rd v s) P :=
  onlyRaises_next (by simpa using hs)

/-- A load raises where its alignment check or its permission check fails, with its address. -/
theorem onlyRaises_loadInto (hs : s.handover = none) {n : Nat} {ext : BitVec (8 * n) → Word} {rd : Reg} {ea : Word}
    (hmisaligned : s.params.misalignedData = .trap → ea.toNat % n ≠ 0 → P ⟨.loadAddressMisaligned, ea⟩)
    (hfault : ¬Permitted s .r ea n → P ⟨.loadAccessFault, ea⟩) : OnlyRaises (loadInto n ext rd ea s) P := by
  rcases loadInto_cases n ext rd ea s with ⟨ht, e⟩ | ⟨-, hp, e⟩ | ⟨-, -, e⟩ <;> rw [e]
  · obtain ⟨htrap, hmod⟩ := (trapsMisaligned_iff ..).1 ht
    exact onlyRaises_raise (hmisaligned htrap hmod)
  · exact onlyRaises_raise (hfault hp)
  · exact onlyRaises_writeBack hs rd _

/-- A store raises where its alignment check or its permission check fails, with its address. -/
theorem onlyRaises_storeFrom (hs : s.handover = none) {n : Nat} {v : BitVec (8 * n)} {ea : Word}
    (hmisaligned : s.params.misalignedData = .trap → ea.toNat % n ≠ 0 → P ⟨.storeAddressMisaligned, ea⟩)
    (hfault : ¬Permitted s .w ea n → P ⟨.storeAccessFault, ea⟩) : OnlyRaises (storeFrom n v ea s) P := by
  rcases storeFrom_cases n v ea s with ⟨ht, e⟩ | ⟨-, hp, e⟩ | ⟨-, -, e⟩ <;> rw [e]
  · obtain ⟨htrap, hmod⟩ := (trapsMisaligned_iff ..).1 ht
    exact onlyRaises_raise (hmisaligned htrap hmod)
  · exact onlyRaises_raise (hfault hp)
  · exact onlyRaises_next hs

/-- A branch raises where it is taken to a misaligned target, with the target. -/
theorem onlyRaises_branchTo (hs : s.handover = none) {taken : Bool} {a : Word}
    (hmisaligned : taken = true → a.toNat % 4 ≠ 0 → P ⟨.instructionAddressMisaligned, a⟩) :
    OnlyRaises (branchTo taken a s) P := by
  rcases branchTo_cases taken a s with ⟨-, -, e⟩ | ⟨htaken, hmod, e⟩ | ⟨-, e⟩ <;> rw [e]
  · exact onlyRaises_next hs
  · exact onlyRaises_raise (hmisaligned htaken hmod)
  · exact onlyRaises_next hs

/-- A jump raises where its target is misaligned, with the target. -/
theorem onlyRaises_jumpLink (hs : s.handover = none) {rd : Reg} {a : Word}
    (hmisaligned : a.toNat % 4 ≠ 0 → P ⟨.instructionAddressMisaligned, a⟩) : OnlyRaises (jumpLink rd a s) P := by
  rcases jumpLink_cases rd a s with ⟨-, e⟩ | ⟨hmod, e⟩ <;> rw [e]
  · exact onlyRaises_next (by simpa using hs)
  · exact onlyRaises_raise (hmisaligned hmod)

end Shapes

/-- The rows of R220, instruction by instruction: loads and stores (one byte wide they are never misaligned), branches
and jumps, `ebreak` and `ecall`. Every other instruction writes a register and raises nothing (40_arithmetic.md R100). -/
theorem exec_onlyRaises_mayRaise (i : Instr) {s : State} (hs : s.handover = none) :
    OnlyRaises (exec i s) (MayRaise i s) := by
  cases i with
  | lb rd rs1 imm =>
    exact onlyRaises_loadInto hs (fun _ h => absurd (Nat.mod_one _) h)
      fun hp => ⟨rd, rs1, imm, rfl, .inl ⟨.inl rfl, hp⟩⟩
  | lbu rd rs1 imm =>
    exact onlyRaises_loadInto hs (fun _ h => absurd (Nat.mod_one _) h)
      fun hp => ⟨rd, rs1, imm, rfl, .inl ⟨.inr rfl, hp⟩⟩
  | lh rd rs1 imm =>
    exact onlyRaises_loadInto hs (fun ht hm => ⟨ht, rd, rs1, imm, rfl, .inl ⟨.inl rfl, hm⟩⟩)
      fun hp => ⟨rd, rs1, imm, rfl, .inr (.inl ⟨.inl rfl, hp⟩)⟩
  | lhu rd rs1 imm =>
    exact onlyRaises_loadInto hs (fun ht hm => ⟨ht, rd, rs1, imm, rfl, .inl ⟨.inr rfl, hm⟩⟩)
      fun hp => ⟨rd, rs1, imm, rfl, .inr (.inl ⟨.inr rfl, hp⟩)⟩
  | lw rd rs1 imm =>
    exact onlyRaises_loadInto hs (fun ht hm => ⟨ht, rd, rs1, imm, rfl, .inr ⟨rfl, hm⟩⟩)
      fun hp => ⟨rd, rs1, imm, rfl, .inr (.inr ⟨rfl, hp⟩)⟩
  | sb rs2 rs1 imm =>
    exact onlyRaises_storeFrom hs (fun _ h => absurd (Nat.mod_one _) h)
      fun hp => ⟨rs2, rs1, imm, rfl, .inl ⟨rfl, hp⟩⟩
  | sh rs2 rs1 imm =>
    exact onlyRaises_storeFrom hs (fun ht hm => ⟨ht, rs2, rs1, imm, rfl, .inl ⟨rfl, hm⟩⟩)
      fun hp => ⟨rs2, rs1, imm, rfl, .inr (.inl ⟨rfl, hp⟩)⟩
  | sw rs2 rs1 imm =>
    exact onlyRaises_storeFrom hs (fun ht hm => ⟨ht, rs2, rs1, imm, rfl, .inr ⟨rfl, hm⟩⟩)
      fun hp => ⟨rs2, rs1, imm, rfl, .inr (.inr ⟨rfl, hp⟩)⟩
  | beq rs1 rs2 offset =>
    exact onlyRaises_branchTo hs fun hc hm =>
      ⟨hm, .inl ⟨rs1, rs2, offset, rfl, .inl ⟨rfl, beq_iff_eq.1 hc⟩⟩⟩
  | bne rs1 rs2 offset =>
    exact onlyRaises_branchTo hs fun hc hm =>
      ⟨hm, .inl ⟨rs1, rs2, offset, rfl, .inr (.inl ⟨rfl, bne_iff_ne.1 hc⟩)⟩⟩
  | blt rs1 rs2 offset =>
    exact onlyRaises_branchTo hs fun hc hm =>
      ⟨hm, .inl ⟨rs1, rs2, offset, rfl, .inr (.inr (.inl ⟨rfl, decide_eq_true_iff.1 hc⟩))⟩⟩
  | bltu rs1 rs2 offset =>
    exact onlyRaises_branchTo hs fun hc hm =>
      ⟨hm, .inl ⟨rs1, rs2, offset, rfl, .inr (.inr (.inr (.inl ⟨rfl, decide_eq_true_iff.1 hc⟩)))⟩⟩
  | bge rs1 rs2 offset =>
    exact onlyRaises_branchTo hs fun hc hm =>
      ⟨hm, .inl ⟨rs1, rs2, offset, rfl, .inr (.inr (.inr (.inr (.inl ⟨rfl, (geSigned_iff ..).1 hc⟩))))⟩⟩
  | bgeu rs1 rs2 offset =>
    exact onlyRaises_branchTo hs fun hc hm =>
      ⟨hm, .inl ⟨rs1, rs2, offset, rfl, .inr (.inr (.inr (.inr (.inr ⟨rfl, (geUnsigned_iff ..).1 hc⟩))))⟩⟩
  | jal rd offset => exact onlyRaises_jumpLink hs fun hm => ⟨hm, .inr (.inl ⟨rd, offset, rfl, rfl⟩)⟩
  | jalr rd rs1 imm => exact onlyRaises_jumpLink hs fun hm => ⟨hm, .inr (.inr ⟨rd, rs1, imm, rfl, rfl⟩)⟩
  | ebreak => exact onlyRaises_raise ⟨rfl, rfl⟩
  | ecall => exact onlyRaises_raise ⟨rfl, rfl⟩
  | _ => exact onlyRaises_writeBack hs _ _

/-! ### What the fetch can raise -/

theorem cause_of_fetch_raises {s : State} {h : Handover} (hf : s.fetch = .raises h) :
    (h = ⟨.instructionAddressMisaligned, s.pc⟩ ∧ s.pc.toNat % 4 ≠ 0) ∨
    (h = ⟨.instructionAccessFault, s.pc⟩ ∧ ¬Permitted s .x s.pc 4) := by
  rcases fetch_cases s with ⟨hmod, e⟩ | ⟨-, hp, e⟩ | ⟨-, -, -, -, e⟩ | ⟨-, -, -, e⟩ <;> cases hf.symm.trans e
  · exact .inl ⟨rfl, hmod⟩
  · exact .inr ⟨rfl, hp⟩

/-! ### A new launch (R228) -/

/-- A register other than `x0` reads its entry of the register file (10_state.md R20). -/
theorem exists_x_eq_regs (s : State) {r : Reg} (hr : r ≠ 0#5) :
    ∃ k : Fin 31, k.val + 1 = r.toNat ∧ s.x r = s.regs[k] := by
  have hpos : r.toNat ≠ 0 := reg_toNat_ne_zero hr
  have hlt : r.toNat < 32 := r.isLt
  exact ⟨⟨r.toNat - 1, by omega⟩, by simp only; omega, dif_neg hr⟩

/-- A step faults only on a state that has handed over: what a fetch raises, a refusal and every instruction do not. -/
theorem step_ne_fault {s : State} (hs : s.handover = none) (f : Fault) : step s ≠ .fault f := by
  rcases step_cases s with ⟨_, hh, -⟩ | ⟨-, x, -, e⟩ | ⟨-, r, -, e⟩ | ⟨-, w, _, -, -, e⟩ | ⟨-, w, i, -, -, e⟩
  · simp [hs] at hh
  · simp [e, raise]
  · simp [e]
  · rcases unlisted_cases w s with ⟨-, eu⟩ | ⟨-, eu⟩ <;> simp [e, eu, raise]
  · obtain ⟨t, ht, -⟩ := exec_effect i s
    simp [e, ht]

theorem step_of_handover {s : State} {h : Handover} (hs : s.handover = some h) : step s = .fault (.runEnded h) := by
  simp [step, hs]

/-! ### The obligations of 60_exceptions.md -/

/-- Settles O18: an instruction by its row of the table; a step raises at its fetch, at an unlisted word, or as the
instruction it runs. -/
theorem onlyTheListedCausesAreRaised : Obligations.OnlyTheListedCausesAreRaised := by
  refine ⟨fun i _ t h hs => exec_onlyRaises_mayRaise i hs t h, fun s t h hs hstep ht => ?_⟩
  rcases step_cases s with ⟨_, hh, -⟩ | ⟨-, x, hf, e⟩ | ⟨-, r, -, e⟩ | ⟨-, w, x, hf, hd, e⟩ | ⟨-, w, i, hf, hd, e⟩
  · simp [hs] at hh
  · obtain rfl : h = x := record_of_raise (e ▸ hstep) ht
    rcases cause_of_fetch_raises hf with hcause | hcause
    · exact .inl hcause
    · exact .inr (.inl hcause)
  · simp [e] at hstep
  · rcases unlisted_cases w s with ⟨-, eu⟩ | ⟨hpolicy, eu⟩
    · simp [e, eu] at hstep
    · exact .inr (.inr (.inl ⟨w, x, hf, hd, hpolicy, record_of_raise (eu ▸ e ▸ hstep) ht⟩))
  · exact .inr (.inr (.inr ⟨w, i, hf, hd, exec_onlyRaises_mayRaise i hs t h (e ▸ hstep) ht⟩))

/-- Settles O17: the hand-over is a raise, by the instruction or by the step itself, which writes the record alone. -/
theorem exceptionsArePrecise : Obligations.ExceptionsArePrecise := by
  intro s t h hs ht hrun
  obtain rfl : t = { s with handover := some h } := by
    rcases hrun with ⟨i, hexec⟩ | hstep
    · exact (effect_of_exec hexec).eq_of_handover hs ht
    · exact eq_of_step_handover hstep ht
  exact ⟨handsOver_set_handover s h, rfl⟩

/-- Settles O10: the step on an unlisted word is `unlisted`, which goes by the policy. -/
theorem unlistedWordsAreRefusedOrRaise : Obligations.UnlistedWordsAreRefusedOrRaise := by
  intro s w e hs hf hd
  rw [step_eq_unlisted hs hf hd]
  rcases unlisted_cases w s with ⟨hpolicy, eu⟩ | ⟨hpolicy, eu⟩ <;> rw [hpolicy, eu]
  · exact ⟨fun _ => rfl, nofun⟩
  · exact ⟨nofun, fun _ => raise_handsOver _ s⟩

/-- Settles O11: after a launch the record is clear, so its step is no fault, and the rest is the environment's choice. -/
theorem aRunEndsAtItsHandoverUntilANewLaunch : Obligations.ARunEndsAtItsHandoverUntilANewLaunch :=
  fun s _ l hs => ⟨step_of_handover hs, launch_handover s l, launch_pc s l, fun _ => rfl,
    fun _ hr => exists_x_eq_regs (s.launch l) hr, step_ne_fault (launch_handover s l)⟩

end Sys2Proof.Machine
end

section
/-! PROOFS. The rule of 70_reset_and_hazards.md: the state a reset gives and the first fetch from it (R260). -/

namespace Sys2Proof.Machine

/-! ### The reset state, field by field (R260) -/

section Reset
variable (c : Params) (resetPc : Word) (xs : Regs) (initMem : Memory)

@[simp] theorem resetWith_pc : (State.resetWith c resetPc xs initMem).pc = resetPc := rfl
@[simp] theorem resetWith_stored : (State.resetWith c resetPc xs initMem).stored = [] := rfl
@[simp] theorem resetWith_handover : (State.resetWith c resetPc xs initMem).handover = none := rfl
@[simp] theorem resetWith_byte (a : Word) : (State.resetWith c resetPc xs initMem).byte a = initMem.read a.toNat := rfl

end Reset

/-! ### The first fetch (20_memory.md R47) -/

/-- Before any store the fetch, under either `IFETCH_AFTER_STORE`, reads the four bytes at an aligned `pc` where these
are executable. -/
theorem fetch_of_stored_nil {s : State} (hs : s.stored = []) (ha : s.pc.toNat % 4 = 0) (hp : Permitted s .x s.pc 4) :
    s.fetch = .word (s.byte (s.pc + 3#32) ++ s.byte (s.pc + 2#32) ++ s.byte (s.pc + 1#32) ++ s.byte s.pc) := by
  have hfetch : s.fetch = .word (s.mem.readLE s.pc 4) := fetch_eq_word ha hp (.inr fun _ _ => by simp [hs])
  rw [hfetch, bytes_of_fetch_word hfetch]

/-! ### The obligation of 70_reset_and_hazards.md -/

/-- Settles O12: the fields of a reset state are the choices it was made of, and its record of stores is empty, so the
first fetch passes its checks. -/
theorem resetGivesTheStateTheSpecGives : Obligations.ResetGivesTheStateTheSpecGives := by
  intro c resetPc xs initMem ha s
  exact ⟨resetWith_pc .., x_zero s, fun r hr => exists_x_eq_regs s hr, resetWith_byte c resetPc xs initMem,
    resetWith_stored .., resetWith_handover .., fetch_of_stored_nil (resetWith_stored ..) ha⟩

end Sys2Proof.Machine
end

section
/-! PROOFS. The round trip of 30_encoding.md sections 2 to 4 from the instruction: what the decoder makes of each layout
at each opcode, so of every encoding, and of its bytes in memory; and the sample words of 95_test_vectors.md as
encodings. -/

namespace Sys2Proof

open Sys2Proof.Machine

/-! ### The decoder on each layout at each opcode (R72 to R78, R87) -/

section Layouts
variable (c : Params) (f7 : BitVec 7) (f3 : BitVec 3) (rd rs1 rs2 : Reg) (imm : BitVec 12)

theorem decodeWord_encR_op :
    decodeWord c (encR f7 rs2 rs1 f3 rd 0b0110011#7) = decodeOp c f7 f3 rd rs1 rs2 := by
  rw [decodeWord_op c (opcodeOf_encR ..), funct7Of_encR, funct3Of_encR, rdOf_encR, rs1Of_encR, rs2Of_encR]

/-- The shifts (R74): `decodeOpImm` also gets the I immediate of the word, which no shift has. -/
theorem decodeWord_encR_opImm :
    decodeWord c (encR f7 rs2 rs1 f3 rd 0b0010011#7) =
      decodeOpImm f7 f3 rd rs1 (immIOf (encR f7 rs2 rs1 f3 rd 0b0010011#7)) rs2 := by
  rw [decodeWord_opImm c (opcodeOf_encR ..), funct7Of_encR, funct3Of_encR, rdOf_encR, rs1Of_encR, rs2Of_encR]

/-- The others of opcode `0010011` (R73): `decodeOpImm` also gets the `funct7` and the shift amount of the word, which
only the shifts have. -/
theorem decodeWord_encI_opImm :
    decodeWord c (encI imm rs1 f3 rd 0b0010011#7) =
      decodeOpImm (funct7Of (encI imm rs1 f3 rd 0b0010011#7)) f3 rd rs1 imm
        (rs2Of (encI imm rs1 f3 rd 0b0010011#7)) := by
  rw [decodeWord_opImm c (opcodeOf_encI ..), funct3Of_encI, rdOf_encI, rs1Of_encI, immIOf_encI]

theorem decodeWord_encI_load : decodeWord c (encI imm rs1 f3 rd 0b0000011#7) = decodeLoad f3 rd rs1 imm := by
  rw [decodeWord_load c (opcodeOf_encI ..), funct3Of_encI, rdOf_encI, rs1Of_encI, immIOf_encI]

theorem decodeWord_encI_jalr : decodeWord c (encI imm rs1 0b000#3 rd 0b1100111#7) = .ok (.jalr rd rs1 imm) := by
  rw [decodeWord_jalr c (opcodeOf_encI ..) (funct3Of_encI ..), rdOf_encI, rs1Of_encI, immIOf_encI]

theorem decodeWord_encS_store : decodeWord c (encS imm rs2 rs1 f3 0b0100011#7) = decodeStore f3 rs2 rs1 imm := by
  rw [decodeWord_store c (opcodeOf_encS ..), funct3Of_encS, rs2Of_encS, rs1Of_encS, immSOf_encS]

/-- Bit 0 of the offset has no place in the layout, so it is read back only when it is 0 (R83). -/
theorem decodeWord_encB_branch {off : BitVec 13} (h : offsetEven off = true) :
    decodeWord c (encB off rs2 rs1 f3 0b1100011#7) = decodeBranch f3 rs1 rs2 off := by
  rw [decodeWord_branch c (opcodeOf_encB ..), funct3Of_encB, rs1Of_encB, rs2Of_encB,
    immBOf_encB _ _ _ _ _ (eq_of_beq h)]

theorem decodeWord_encJ_jal {off : BitVec 21} (h : offsetEven off = true) :
    decodeWord c (encJ off rd 0b1101111#7) = .ok (.jal rd off) := by
  rw [decodeWord_jal c (opcodeOf_encJ ..), rdOf_encJ, immJOf_encJ _ _ _ (eq_of_beq h)]

theorem decodeWord_encU_auipc (immu : BitVec 20) :
    decodeWord c (encU immu rd 0b0010111#7) = .ok (.auipc rd immu) := by
  rw [decodeWord_auipc c (opcodeOf_encU ..), rdOf_encU, immUOf_encU]

theorem decodeWord_encU_lui (immu : BitVec 20) : decodeWord c (encU immu rd 0b0110111#7) = .ok (.lui rd immu) := by
  rw [decodeWord_lui c (opcodeOf_encU ..), rdOf_encU, immUOf_encU]

end Layouts

/-! ### The decoder on an encoding, and on its bytes -/

/-- An encoding is a layout with the opcode, `funct3` and `funct7` of its row, at which the part of the decoder for the
opcode answers with the constructor. -/
theorem decodeWord_encode {c : Params} {i : Instr} (h : i.wellFormed c = true) : decodeWord c (encode c i) = .ok i := by
  cases i
  case add | sub | and | or | xor | sll | srl | sra | slt | sltu => exact decodeWord_encR_op ..
  case addi | andi | ori | xori | slti | sltiu => exact decodeWord_encI_opImm ..
  case slli | srli | srai => exact decodeWord_encR_opImm ..
  case lb | lbu | lh | lhu | lw => exact decodeWord_encI_load ..
  case sb | sh | sw => exact decodeWord_encS_store ..
  case beq | bne | blt | bltu | bge | bgeu => exact decodeWord_encB_branch _ _ _ _ h
  case jal => exact decodeWord_encJ_jal _ _ h
  case jalr => exact decodeWord_encI_jalr ..
  case auipc => exact decodeWord_encU_auipc ..
  case lui => exact decodeWord_encU_lui ..
  case ebreak => exact decodeWord_ebreakWord c
  case ecall => exact decodeWord_ecallWord c
  case mul => exact (decodeWord_encR_op ..).trans (if_pos h)

/-- The first four bytes in memory order decide what is decoded, and the rest is left (R70). -/
theorem decodeBytes_bytesOfWord_append {c : Params} {w : Word} {i : Instr} (rest : List Byte)
    (h : decodeWord c w = .ok i) : decodeBytes c (bytesOfWord w ++ rest) = .ok (i, rest) := by
  simp [decodeBytes, bytesOfWord, wordOfBytes_bytesOfWord, h]

/-- The host's question, for bits that are those of an encoding. -/
theorem decodeTableWord_of_encode {i : Instr} {nbits n : Nat} (hwf : i.wellFormed defaultParams = true)
    (h : encode defaultParams i = BitVec.ofNat 32 (n % 2 ^ nbits)) : decodeTableWord nbits n = some i := by
  have hbytes := decodeBytes_bytesOfWord_append [] (decodeWord_encode hwf)
  rw [List.append_nil, h] at hbytes
  simp only [decodeTableWord, hbytes]

/-! ### The obligations -/

/-- Settles O1: the decoder reads back each layout's fields, and the four bytes of a word make the word again. -/
theorem decodingAnEncodingGivesTheInstructionBack : Obligations.DecodingAnEncodingGivesTheInstructionBack :=
  fun _ _ rest h => ⟨decodeWord_encode h, decodeBytes_bytesOfWord_append rest (decodeWord_encode h)⟩

/-- Settles O7: each word is the encoding of its instruction, so by O1 it decodes to it. -/
theorem sampleWordsDecode : Obligations.SampleWordsDecode := by
  refine ⟨?_, ?_, ?_, ?_, ?_, ?_, ?_, ?_, ?_, ?_, ?_, ?_, ?_⟩
  all_goals exact decodeTableWord_of_encode rfl rfl

end Sys2Proof
end
